-- ==== Sys2Proof/Word.lean ====
section
/-! DEFINITION. The word types of the CHIP-8 core (00_scope.md R6 to R8) and nothing else: bytes, 16-bit words,
the immediates of the instruction word and register numbers. -/

namespace Sys2Proof

/-- An 8-bit value: a memory cell, a general register, a timer, the immediate `kk` (R6, R21, R93). -/
abbrev Byte := BitVec 8

/-- A 16-bit value: an instruction word, PC, I, a stack entry (R6, R90). -/
abbrev Word := BitVec 16

/-- The 12-bit immediate `nnn` (R91). -/
abbrev Addr := BitVec 12

/-- A 4-bit field: the immediate `n`, an opcode (R91). -/
abbrev Nibble := BitVec 4

/-- The number of a general register, V0 to VF; all 16 values are legal (R21, R93). -/
abbrev Reg := Fin 16

/-- V0, the implicit operand of Bnnn (R93). -/
abbrev V0 : Reg := 0

/-- VF, which "doubles as a flag register" (R22). -/
abbrev VF : Reg := 15

/-- Zero extension of the address immediate to the width of PC and I (R93). -/
def Addr.toWord (nnn : Addr) : Word := nnn.setWidth 16

end Sys2Proof
end

