-- ==== Sys2Proof/Config.lean ====
section
/-! DEFINITION. The implementation parameters of 00_scope.md R6 that the spec makes arguments of the model, their
defaults, and the one free value: the byte the random source gives (R32, R183). -/

namespace Sys2Proof

/-- One hexadecimal glyph: five sprite rows (R38). -/
abbrev Glyph := Vector Byte 5

/-- The parameter `FONT`: the 16 glyphs 0 to F, 80 bytes (R6, R38). -/
abbrev Font := Vector Glyph 16

/-- The parameter `SHL_SOURCE`: the source operand of 8xyE (R6, R182). -/
inductive ShlSource where
  /-- `SHL_SOURCE = Vx`, the default. -/
  | vx
  /-- `SHL_SOURCE = Vy`. -/
  | vy
  deriving DecidableEq, Repr

/-- The parameters of R6 that are marked `model argument`, but for `RNG` (see `Config.drawByte`). -/
structure Config where
  /-- `FONT`, the 80 font bytes. -/
  font : Font
  /-- `INCLUDE_ANNN_BNNN`: whether Annn and Bnnn are instructions or unmapped. -/
  includeAnnnBnnn : Bool
  /-- `SHL_SOURCE`. -/
  shlSource : ShlSource
  /-- `FONT_PROTECT`: whether stores into 0x000 to 0x04F fail. -/
  fontProtect : Bool
  deriving DecidableEq, Repr

/-- The default of `FONT`: the table of 10_state.md R38, one glyph a line. -/
def Config.defaultFont : Font := #v[
  #v[0xF0, 0x90, 0x90, 0x90, 0xF0],
  #v[0x20, 0x60, 0x20, 0x20, 0x70],
  #v[0xF0, 0x10, 0xF0, 0x80, 0xF0],
  #v[0xF0, 0x10, 0xF0, 0x10, 0xF0],
  #v[0x90, 0x90, 0xF0, 0x10, 0x10],
  #v[0xF0, 0x80, 0xF0, 0x10, 0xF0],
  #v[0xF0, 0x80, 0xF0, 0x90, 0xF0],
  #v[0xF0, 0x10, 0x20, 0x40, 0x40],
  #v[0xF0, 0x90, 0xF0, 0x90, 0xF0],
  #v[0xF0, 0x90, 0xF0, 0x10, 0xF0],
  #v[0xF0, 0x90, 0xF0, 0x90, 0x90],
  #v[0xE0, 0x90, 0xE0, 0x90, 0xE0],
  #v[0xF0, 0x80, 0x80, 0x80, 0xF0],
  #v[0xE0, 0x90, 0x90, 0x90, 0xE0],
  #v[0xF0, 0x80, 0xF0, 0x80, 0xF0],
  #v[0xF0, 0x80, 0xF0, 0x80, 0x80]]

/-- The defaults of R6. -/
def Config.default : Config where
  font := Config.defaultFont
  includeAnnnBnnn := true
  shlSource := .vx
  fontProtect := true

/-- How the random source was seeded at construction (R331): with a value the host gave for testing, or with a
sample of the entropy source. -/
inductive Seed where
  | given (seed : Nat)
  | entropy (sample : Nat)
  deriving DecidableEq, Repr

/-- The free value of the model (log entry 2): the byte that the random source seeded with `seed` gives at its
draw number `draws`. It has no body, so nothing can be proved of it and a claim holds for every byte: "The model states
nothing about the sequence of draws" (R32). -/
opaque Config.drawByte (seed : Seed) (draws : Nat) : Byte

end Sys2Proof
end

