-- ==== Sys2Proof/Syntax.lean ====
section
/-! DEFINITION. The instructions: one constructor per row of spec/opcode_table.json (30_encoding.md R95), in the
table's order, with the operand fields of R91 and R92. The y field of 8xy6 and 8xyE is kept, although 8xy6 ignores
it, because it is part of the encoding (R180, R182). -/

namespace Sys2Proof

inductive Instr where
  /-- `00E0` CLS. -/
  | cls
  /-- `00EE` RET. -/
  | ret
  /-- `1nnn` JP addr. -/
  | jp (nnn : Addr)
  /-- `2nnn` CALL addr. -/
  | call (nnn : Addr)
  /-- `3xkk` SE Vx, byte. -/
  | seByte (x : Reg) (kk : Byte)
  /-- `4xkk` SNE Vx, byte. -/
  | sneByte (x : Reg) (kk : Byte)
  /-- `5xy0` SE Vx, Vy. -/
  | seReg (x y : Reg)
  /-- `6xkk` LD Vx, byte. -/
  | ldByte (x : Reg) (kk : Byte)
  /-- `7xkk` ADD Vx, byte. -/
  | addByte (x : Reg) (kk : Byte)
  /-- `8xy0` LD Vx, Vy. -/
  | ldReg (x y : Reg)
  /-- `8xy1` OR Vx, Vy. -/
  | orReg (x y : Reg)
  /-- `8xy2` AND Vx, Vy. -/
  | andReg (x y : Reg)
  /-- `8xy3` XOR Vx, Vy. -/
  | xorReg (x y : Reg)
  /-- `8xy4` ADD Vx, Vy. -/
  | addReg (x y : Reg)
  /-- `8xy5` SUB Vx, Vy. -/
  | sub (x y : Reg)
  /-- `8xy6` SHR Vx, with Vy encoded and ignored. -/
  | shr (x y : Reg)
  /-- `8xy7` SUBN Vx, Vy. -/
  | subn (x y : Reg)
  /-- `8xyE` SHL Vx, with Vy encoded. -/
  | shl (x y : Reg)
  /-- `9xy0` SNE Vx, Vy. -/
  | sneReg (x y : Reg)
  /-- `Annn` LD I, addr. -/
  | ldI (nnn : Addr)
  /-- `Bnnn` JP V0, addr. -/
  | jpV0 (nnn : Addr)
  /-- `Cxkk` RND Vx, byte. -/
  | rnd (x : Reg) (kk : Byte)
  /-- `Dxyn` DRW Vx, Vy, nibble. -/
  | drw (x y : Reg) (n : Nibble)
  /-- `Ex9E` SKP Vx. -/
  | skp (x : Reg)
  /-- `ExA1` SKNP Vx. -/
  | sknp (x : Reg)
  /-- `Fx07` LD Vx, DT. -/
  | ldVxDt (x : Reg)
  /-- `Fx0A` LD Vx, K. -/
  | ldVxK (x : Reg)
  /-- `Fx15` LD DT, Vx. -/
  | ldDtVx (x : Reg)
  /-- `Fx18` LD ST, Vx. -/
  | ldStVx (x : Reg)
  /-- `Fx1E` ADD I, Vx. -/
  | addI (x : Reg)
  /-- `Fx29` LD F, Vx. -/
  | ldF (x : Reg)
  /-- `Fx33` LD B, Vx. -/
  | ldB (x : Reg)
  /-- `Fx55` LD [I], Vx. -/
  | storeRegs (x : Reg)
  /-- `Fx65` LD Vx, [I]. -/
  | loadRegs (x : Reg)
  deriving DecidableEq, Repr

end Sys2Proof
end

