-- ==== Sys2Proof/WellFormed.lean ====
section
/-! DEFINITION. Which terms of Instr are instructions of the core under given parameters. The operand widths are in
the types of Syntax.lean, so the one check left is that of 30_encoding.md R94: Annn and Bnnn are instructions only when
`INCLUDE_ANNN_BNNN` is true. -/

namespace Sys2Proof

/-- Annn and Bnnn, the two instructions that `INCLUDE_ANNN_BNNN` decides on (R144, R201). -/
def Instr.isAnnnBnnn : Instr → Bool
  | .ldI _ => true
  | .jpV0 _ => true
  | .cls | .ret | .jp _ | .call _ | .seByte _ _ | .sneByte _ _ | .seReg _ _ | .ldByte _ _ | .addByte _ _ => false
  | .ldReg _ _ | .orReg _ _ | .andReg _ _ | .xorReg _ _ | .addReg _ _ | .sub _ _ | .shr _ _ | .subn _ _ => false
  | .shl _ _ | .sneReg _ _ | .rnd _ _ | .drw _ _ _ | .skp _ | .sknp _ | .ldVxDt _ | .ldVxK _ | .ldDtVx _ => false
  | .ldStVx _ | .addI _ | .ldF _ | .ldB _ | .storeRegs _ | .loadRegs _ => false

/-- The instruction is one of the instruction set that the parameters select (R94, R96). -/
def Instr.wellFormed (c : Config) (i : Instr) : Bool :=
  !i.isAnnnBnnn || c.includeAnnnBnnn

end Sys2Proof
end

