-- ==== Sys2Proof/Decode.lean ====
section
/-! DEFINITION. Decoding (30_encoding.md R90 to R97), the opcode table of R95 as data, and the encoder written from the
formats of R92. -/

namespace Sys2Proof

/-! ## Fields (R91) -/

/-- `op = w[15:12]`. -/
def fieldOp (w : Word) : Nibble := w.extractLsb' 12 4

/-- `x = w[11:8]`, a register number. -/
def fieldX (w : Word) : Reg := (w.extractLsb' 8 4).toFin

/-- `y = w[7:4]`, a register number. -/
def fieldY (w : Word) : Reg := (w.extractLsb' 4 4).toFin

/-- `n = w[3:0]`. -/
def fieldN (w : Word) : Nibble := w.extractLsb' 0 4

/-- `kk = w[7:0]`. -/
def fieldKK (w : Word) : Byte := w.extractLsb' 0 8

/-- `nnn = w[11:0]`. -/
def fieldNNN (w : Word) : Addr := w.extractLsb' 0 12

/-! ## Decoding (R94) -/

/-- What decoding answers: "an instruction or `UNMAPPED`" (R94, R97). -/
inductive Decoded where
  | instr (i : Instr)
  /-- The word matches no defined pattern (R96). -/
  | unmapped
  deriving DecidableEq, Repr

/-- Major opcode 0: CLS, RET, and unmapped for every other 0nnn (R94, R96). -/
def decode0 (w : Word) : Decoded :=
  if w = 0x00E0#16 then .instr .cls
  else if w = 0x00EE#16 then .instr .ret
  else .unmapped

/-- Major opcode 8: the register-to-register group, by its minor code n (R94). -/
def decode8 (x y : Reg) (n : Nibble) : Decoded :=
  match n.toNat with
  | 0x0 => .instr (.ldReg x y)
  | 0x1 => .instr (.orReg x y)
  | 0x2 => .instr (.andReg x y)
  | 0x3 => .instr (.xorReg x y)
  | 0x4 => .instr (.addReg x y)
  | 0x5 => .instr (.sub x y)
  | 0x6 => .instr (.shr x y)
  | 0x7 => .instr (.subn x y)
  | 0xE => .instr (.shl x y)
  | _ => .unmapped

/-- Major opcode E: the key skips, by the minor code kk (R94). -/
def decodeE (x : Reg) (kk : Byte) : Decoded :=
  if kk = 0x9E#8 then .instr (.skp x)
  else if kk = 0xA1#8 then .instr (.sknp x)
  else .unmapped

/-- Major opcode F, by the minor code kk (R94). -/
def decodeF (x : Reg) (kk : Byte) : Decoded :=
  if kk = 0x07#8 then .instr (.ldVxDt x)
  else if kk = 0x0A#8 then .instr (.ldVxK x)
  else if kk = 0x15#8 then .instr (.ldDtVx x)
  else if kk = 0x18#8 then .instr (.ldStVx x)
  else if kk = 0x1E#8 then .instr (.addI x)
  else if kk = 0x29#8 then .instr (.ldF x)
  else if kk = 0x33#8 then .instr (.ldB x)
  else if kk = 0x55#8 then .instr (.storeRegs x)
  else if kk = 0x65#8 then .instr (.loadRegs x)
  else .unmapped

/-- "Decoding is a total function from the 65536 words to an instruction or `UNMAPPED`" (R94). -/
def decode (c : Config) (w : Word) : Decoded :=
  match (fieldOp w).toNat with
  | 0x0 => decode0 w
  | 0x1 => .instr (.jp (fieldNNN w))
  | 0x2 => .instr (.call (fieldNNN w))
  | 0x3 => .instr (.seByte (fieldX w) (fieldKK w))
  | 0x4 => .instr (.sneByte (fieldX w) (fieldKK w))
  | 0x5 => if fieldN w = 0x0#4 then .instr (.seReg (fieldX w) (fieldY w)) else .unmapped
  | 0x6 => .instr (.ldByte (fieldX w) (fieldKK w))
  | 0x7 => .instr (.addByte (fieldX w) (fieldKK w))
  | 0x8 => decode8 (fieldX w) (fieldY w) (fieldN w)
  | 0x9 => if fieldN w = 0x0#4 then .instr (.sneReg (fieldX w) (fieldY w)) else .unmapped
  | 0xA => if c.includeAnnnBnnn then .instr (.ldI (fieldNNN w)) else .unmapped
  | 0xB => if c.includeAnnnBnnn then .instr (.jpV0 (fieldNNN w)) else .unmapped
  | 0xC => .instr (.rnd (fieldX w) (fieldKK w))
  | 0xD => .instr (.drw (fieldX w) (fieldY w) (fieldN w))
  | 0xE => decodeE (fieldX w) (fieldKK w)
  | 0xF => decodeF (fieldX w) (fieldKK w)
  | _ => .unmapped

/-! ## Bytes and words (20_memory.md R66) -/

/-- The word of two consecutive bytes, `hi * 256 + lo`: "the byte at the lower address is the high byte" (R66). -/
def wordOfBytes (hi lo : Byte) : Word := BitVec.ofNat 16 (hi.toNat * 256 + lo.toNat)

/-- The byte of a word that lies at the lower address (R66). -/
def highByte (w : Word) : Byte := w.extractLsb' 8 8

/-- The byte of a word that lies at the higher address (R66). -/
def lowByte (w : Word) : Byte := w.extractLsb' 0 8

/-- Why a sequence of bytes gives no instruction. -/
inductive Reject where
  /-- The word matches no defined pattern (R96). -/
  | unmapped (w : Word)
  /-- Fewer than the two bytes of an instruction word (R90). -/
  | tooShort
  deriving DecidableEq, Repr

/-- Decoding of any bytes: the instruction of the first two and the bytes after it, or the reason there is none. -/
def decodeBytes (c : Config) : List Byte → Except Reject (Instr × List Byte)
  | hi :: lo :: rest =>
    match decode c (wordOfBytes hi lo) with
    | .instr i => .ok (i, rest)
    | .unmapped => .error (.unmapped (wordOfBytes hi lo))
  | _ => .error .tooShort

/-- The instruction the decoder reads, under the default parameters, from the word `w` of a table row of `nbits`
bits, laid out as the hardware stores it: the high byte first (R66). -/
def decodeTableWord (nbits w : Nat) : Option Instr :=
  let word := BitVec.ofNat 16 (w % 2 ^ nbits)
  match decodeBytes Config.default [highByte word, lowByte word] with
  | .ok (i, _) => some i
  | .error _ => none

/-! ## Encoding (R92) -/

/-- Format `NNN`: op in bits 15..12, nnn in bits 11..0. -/
def wordNNN (op : Nibble) (nnn : Addr) : Word := BitVec.ofNat 16 (op.toNat * 0x1000 + nnn.toNat)

/-- Formats `XKK` and `XS`: op in bits 15..12, x in bits 11..8, kk in bits 7..0. -/
def wordXKK (op : Nibble) (x : Reg) (kk : Byte) : Word :=
  BitVec.ofNat 16 (op.toNat * 0x1000 + x.val * 0x100 + kk.toNat)

/-- Formats `XYS` and `XYN`: op in bits 15..12, x in bits 11..8, y in bits 7..4, n in bits 3..0. -/
def wordXYN (op : Nibble) (x y : Reg) (n : Nibble) : Word :=
  BitVec.ofNat 16 (op.toNat * 0x1000 + x.val * 0x100 + y.val * 0x10 + n.toNat)

/-- The word of an instruction, from the patterns and formats of R95. -/
def encode : Instr → Word
  | .cls => 0x00E0#16
  | .ret => 0x00EE#16
  | .jp nnn => wordNNN 0x1#4 nnn
  | .call nnn => wordNNN 0x2#4 nnn
  | .seByte x kk => wordXKK 0x3#4 x kk
  | .sneByte x kk => wordXKK 0x4#4 x kk
  | .seReg x y => wordXYN 0x5#4 x y 0x0#4
  | .ldByte x kk => wordXKK 0x6#4 x kk
  | .addByte x kk => wordXKK 0x7#4 x kk
  | .ldReg x y => wordXYN 0x8#4 x y 0x0#4
  | .orReg x y => wordXYN 0x8#4 x y 0x1#4
  | .andReg x y => wordXYN 0x8#4 x y 0x2#4
  | .xorReg x y => wordXYN 0x8#4 x y 0x3#4
  | .addReg x y => wordXYN 0x8#4 x y 0x4#4
  | .sub x y => wordXYN 0x8#4 x y 0x5#4
  | .shr x y => wordXYN 0x8#4 x y 0x6#4
  | .subn x y => wordXYN 0x8#4 x y 0x7#4
  | .shl x y => wordXYN 0x8#4 x y 0xE#4
  | .sneReg x y => wordXYN 0x9#4 x y 0x0#4
  | .ldI nnn => wordNNN 0xA#4 nnn
  | .jpV0 nnn => wordNNN 0xB#4 nnn
  | .rnd x kk => wordXKK 0xC#4 x kk
  | .drw x y n => wordXYN 0xD#4 x y n
  | .skp x => wordXKK 0xE#4 x 0x9E#8
  | .sknp x => wordXKK 0xE#4 x 0xA1#8
  | .ldVxDt x => wordXKK 0xF#4 x 0x07#8
  | .ldVxK x => wordXKK 0xF#4 x 0x0A#8
  | .ldDtVx x => wordXKK 0xF#4 x 0x15#8
  | .ldStVx x => wordXKK 0xF#4 x 0x18#8
  | .addI x => wordXKK 0xF#4 x 0x1E#8
  | .ldF x => wordXKK 0xF#4 x 0x29#8
  | .ldB x => wordXKK 0xF#4 x 0x33#8
  | .storeRegs x => wordXKK 0xF#4 x 0x55#8
  | .loadRegs x => wordXKK 0xF#4 x 0x65#8

/-! ## The opcode table (R95) -/

/-- A row of the table: a word is the row's when `w AND mask = bits`. -/
structure OpcodeRow where
  mask : Word
  bits : Word
  deriving DecidableEq, Repr

/-- The word matches the row. -/
def OpcodeRow.matches (r : OpcodeRow) (w : Word) : Bool := w &&& r.mask == r.bits

/-- The row of an instruction: its mask and match in the table of R95. -/
def Instr.row : Instr → OpcodeRow
  | .cls => ⟨0xFFFF#16, 0x00E0#16⟩
  | .ret => ⟨0xFFFF#16, 0x00EE#16⟩
  | .jp _ => ⟨0xF000#16, 0x1000#16⟩
  | .call _ => ⟨0xF000#16, 0x2000#16⟩
  | .seByte _ _ => ⟨0xF000#16, 0x3000#16⟩
  | .sneByte _ _ => ⟨0xF000#16, 0x4000#16⟩
  | .seReg _ _ => ⟨0xF00F#16, 0x5000#16⟩
  | .ldByte _ _ => ⟨0xF000#16, 0x6000#16⟩
  | .addByte _ _ => ⟨0xF000#16, 0x7000#16⟩
  | .ldReg _ _ => ⟨0xF00F#16, 0x8000#16⟩
  | .orReg _ _ => ⟨0xF00F#16, 0x8001#16⟩
  | .andReg _ _ => ⟨0xF00F#16, 0x8002#16⟩
  | .xorReg _ _ => ⟨0xF00F#16, 0x8003#16⟩
  | .addReg _ _ => ⟨0xF00F#16, 0x8004#16⟩
  | .sub _ _ => ⟨0xF00F#16, 0x8005#16⟩
  | .shr _ _ => ⟨0xF00F#16, 0x8006#16⟩
  | .subn _ _ => ⟨0xF00F#16, 0x8007#16⟩
  | .shl _ _ => ⟨0xF00F#16, 0x800E#16⟩
  | .sneReg _ _ => ⟨0xF00F#16, 0x9000#16⟩
  | .ldI _ => ⟨0xF000#16, 0xA000#16⟩
  | .jpV0 _ => ⟨0xF000#16, 0xB000#16⟩
  | .rnd _ _ => ⟨0xF000#16, 0xC000#16⟩
  | .drw _ _ _ => ⟨0xF000#16, 0xD000#16⟩
  | .skp _ => ⟨0xF0FF#16, 0xE09E#16⟩
  | .sknp _ => ⟨0xF0FF#16, 0xE0A1#16⟩
  | .ldVxDt _ => ⟨0xF0FF#16, 0xF007#16⟩
  | .ldVxK _ => ⟨0xF0FF#16, 0xF00A#16⟩
  | .ldDtVx _ => ⟨0xF0FF#16, 0xF015#16⟩
  | .ldStVx _ => ⟨0xF0FF#16, 0xF018#16⟩
  | .addI _ => ⟨0xF0FF#16, 0xF01E#16⟩
  | .ldF _ => ⟨0xF0FF#16, 0xF029#16⟩
  | .ldB _ => ⟨0xF0FF#16, 0xF033#16⟩
  | .storeRegs _ => ⟨0xF0FF#16, 0xF055#16⟩
  | .loadRegs _ => ⟨0xF0FF#16, 0xF065#16⟩

/-- The 34 rows of the table, in its order, each taken from an instruction of the row. -/
def opcodeRows : List OpcodeRow :=
  ([.cls, .ret, .jp 0, .call 0, .seByte 0 0, .sneByte 0 0, .seReg 0 0, .ldByte 0 0, .addByte 0 0] : List Instr).map Instr.row
  ++ ([.ldReg 0 0, .orReg 0 0, .andReg 0 0, .xorReg 0 0, .addReg 0 0, .sub 0 0, .shr 0 0, .subn 0 0, .shl 0 0,
       .sneReg 0 0] : List Instr).map Instr.row
  ++ ([.ldI 0, .jpV0 0, .rnd 0 0, .drw 0 0 0, .skp 0, .sknp 0] : List Instr).map Instr.row
  ++ ([.ldVxDt 0, .ldVxK 0, .ldDtVx 0, .ldStVx 0, .addI 0, .ldF 0, .ldB 0, .storeRegs 0, .loadRegs 0] : List Instr).map Instr.row

/-- The rows that are instructions under the parameters: the two rows A and B are none when `INCLUDE_ANNN_BNNN` is
false (R94, R96). -/
def Config.opcodeRows (c : Config) : List OpcodeRow :=
  Sys2Proof.opcodeRows.filter fun r => c.includeAnnnBnnn || !(r == ⟨0xF000#16, 0xA000#16⟩ || r == ⟨0xF000#16, 0xB000#16⟩)

end Sys2Proof
end

