-- ==== Sys2Proof/Machine/State.lean ====
section
/-! DEFINITION. The state of the core (10_state.md R20 to R39), the conditions a step can fail with (40_step.md R128),
and construction, which is the only reset (70_reset_and_hazards.md R330 to R333). -/

namespace Sys2Proof.Machine

/-- Memory: the cells that differ from what construction left there, by rising address (20_memory.md R60; the canonical
form is `Memory.wf` in Machine/Ops.lean). -/
abbrev Memory := List Host.Cell

/-- The framebuffer, row by row: pixel (c, r) is bit c of row r, which is `fb[c + 64*r]` of the spec (R30). -/
abbrev Framebuffer := Vector (BitVec 64) 32

/-- The random source: how it was seeded and how many draws it has given (R32, R331; log entry 2). -/
structure Rng where
  seed : Seed
  draws : Nat
  deriving DecidableEq, Repr

/-- The state of the core: the tuple of R20, and the parameters `cfg` of 00_scope.md R6, which no operation writes
(log entry 1). -/
structure State where
  /-- The parameters of the core, fixed at construction. -/
  cfg : Config
  /-- 4096 cells of 8 bits (R33). -/
  mem : Memory
  /-- The general registers V0 to VF (R21). -/
  v : Vector Byte 16
  /-- The index register (R24). -/
  i : Word
  /-- The program counter (R23). -/
  pc : Word
  /-- The stack pointer, "always in [0,16]": the number of live entries (R25). -/
  sp : Fin 17
  /-- The call stack; an entry at SP or above holds whatever was last written there (R26). -/
  stack : Vector Word 16
  /-- The delay timer (R27). -/
  dt : Byte
  /-- The sound timer (R28). -/
  st : Byte
  /-- The framebuffer, 64 by 32 pixels (R30). -/
  fb : Framebuffer
  /-- The keypad: true is pressed (R31). -/
  key : Vector Bool 16
  /-- The draw-flag (R29). -/
  drawFlag : Bool
  /-- The random source (R32). -/
  rng : Rng
  deriving DecidableEq, Repr

/-- The conditions a step can fail with (R128). The state after a failing step is the state before it (R129), so a
fault carries no state. Each records `pc`, the address of the instruction that raised it. -/
inductive Fault where
  /-- Raised by 2nnn with SP = 16 (R143, R283). Safe: the spec names this failure. -/
  | stackOverflow (pc : Word)
  /-- Raised by 00EE with SP = 0 (R141, R284). Safe: the spec names this failure. -/
  | stackUnderflow (pc : Word)
  /-- Raised by the fetch, Dxyn, Fx33, Fx55 and Fx65 for an access above 0xFFF; `addr` is the lowest such address
  (R285). Safe: the spec names this failure. -/
  | addressOutOfRange (pc : Word) (addr : Nat)
  /-- Raised by Fx33 and Fx55 for a store below 0x050 when `FONT_PROTECT` is true; `addr` is the lowest such address
  (R286). Safe: the spec names this failure. -/
  | fontWriteViolation (pc : Word) (addr : Nat)
  /-- Raised by Ex9E and ExA1 when V[x] is above 15; `code` is V[x] (R287). Safe: the spec names this failure. -/
  | invalidKeyCode (pc : Word) (code : Byte)
  deriving DecidableEq, Repr

/-- The address that a fault records: that of the instruction that raised it (R128). -/
def Fault.pc : Fault → Word
  | .stackOverflow pc => pc
  | .stackUnderflow pc => pc
  | .addressOutOfRange pc _ => pc
  | .fontWriteViolation pc _ => pc
  | .invalidKeyCode pc _ => pc

/-- Reasons the model has no meaning for an instruction. Every instruction of the table has one, so nothing raises it. -/
inductive Refusal where
  /-- Raised by an arm of `exec` whose instruction has no meaning yet; no arm is one. Safe: the run stops. -/
  | notModelled (mnemonic : String)
  deriving DecidableEq, Repr

/-- The outcome of one instruction or one step. -/
abbrev Outcome := Host.Outcome State Fault Refusal

/-- Construction: every piece of state at the value of the table of R37, by the procedure of R330. Memory lists nothing,
since an unlisted cell reads as construction left it (`resetByte` in Machine/Ops.lean). -/
def State.construct (cfg : Config) (seed : Seed) : State where
  cfg := cfg
  mem := []
  v := Vector.replicate 16 0
  i := 0x0000
  pc := 0x0200
  sp := 0
  stack := Vector.replicate 16 0
  dt := 0
  st := 0
  fb := Vector.replicate 32 0
  key := Vector.replicate 16 false
  drawFlag := false
  rng := { seed := seed, draws := 0 }

/-- The machine right after reset, with the default parameters of R6; the seed is a sample of the entropy source
(R37, R331; log entry 2). -/
def State.reset : State := State.construct Config.default (.entropy 0)

end Sys2Proof.Machine
end

