-- ==== Sys2Proof/Machine/Ops.lean ====
section
/-! DEFINITION. The named operations over the state: memory (20_memory.md R60 to R68), general registers (R21), PC
(40_step.md R123, R124), the call stack (R25, R26), the framebuffer (R30), the keypad (R31), the random source (R32),
and failing a step (R129), which is all the core has in place of exceptions. -/

namespace Sys2Proof.Machine

/-! ## Failing a step (R129, R295) -/

/-- What an instruction rule raises: a condition without the instruction's address. -/
inductive Raise where
  | stackOverflow
  | stackUnderflow
  | addressOutOfRange (addr : Nat)
  | fontWriteViolation (addr : Nat)
  | invalidKeyCode (code : Byte)
  deriving DecidableEq, Repr

/-- "The step adds `pc0` as the condition's first field" (R131). -/
def Raise.at (pc : Word) : Raise → Fault
  | .stackOverflow => .stackOverflow pc
  | .stackUnderflow => .stackUnderflow pc
  | .addressOutOfRange a => .addressOutOfRange pc a
  | .fontWriteViolation a => .fontWriteViolation pc a
  | .invalidKeyCode k => .invalidKeyCode pc k

/-- `raise C(info)` ends the step: PC addresses the failing instruction, nothing is saved anywhere, no vector is taken
(R129, R295). -/
def raise (c : Raise) (s : State) : Outcome := .fault (c.at s.pc)

/-! ## Memory -/

/-- What construction leaves at an address, and so what an unlisted address reads as: the font below 0x050 (R38, glyph
d at 5d), 0x00 above (R37, R61). -/
def resetByte (f : Font) (a : Nat) : Byte :=
  if h : a < 80 then f[a / 5][a % 5] else 0

/-- The canonical form of memory: addresses strictly rising and inside the space of 4096 cells (`MEM_SIZE`, R60), and no cell listed that holds what an
unlisted one reads as. -/
abbrev Memory.wf (f : Font) (m : Memory) : Prop :=
  m.Pairwise (fun p q => p.1 < q.1) ∧ ∀ p ∈ m, p.1 < 4096 ∧ p.2 ≠ resetByte f p.1

/-- The byte at an address. -/
def Memory.read (f : Font) : Memory → Nat → Byte
  | [], a => resetByte f a
  | (b, v) :: rest, a => if b = a then v else Memory.read f rest a

/-- Put a cell in its place in the list, replacing one of the same address. -/
def Memory.insert (a : Nat) (v : Byte) : Memory → Memory
  | [] => [(a, v)]
  | (b, w) :: rest =>
    if a < b then (a, v) :: (b, w) :: rest
    else if a = b then (a, v) :: rest
    else (b, w) :: Memory.insert a v rest

/-- Take a cell out of the list. -/
def Memory.erase (a : Nat) (m : Memory) : Memory := m.filter (fun p => p.1 != a)

/-- Store a byte, keeping the canonical form. -/
def Memory.write (f : Font) (m : Memory) (a : Nat) (v : Byte) : Memory :=
  if v = resetByte f a then Memory.erase a m else Memory.insert a v m

/-- The byte of memory at an address of the space, with no check. -/
def State.byteAt (s : State) (a : Nat) : Byte := Memory.read s.cfg.font s.mem a

/-- Store a byte at an address of the space, with no check. -/
def State.setByte (s : State) (a : Nat) (v : Byte) : State :=
  { s with mem := Memory.write s.cfg.font s.mem a v }

/-- What `MemRead(addr, 1)` raises (R62). -/
def checkRead (a : Nat) : Option Raise :=
  if a > 0xFFF then some (.addressOutOfRange a) else none

/-- What `MemWrite(addr, 1, v)` raises: the range first, then the font (R63, R294). -/
def checkWrite (c : Config) (a : Nat) : Option Raise :=
  if a > 0xFFF then some (.addressOutOfRange a)
  else if c.fontProtect && a < 0x050 then some (.fontWriteViolation a)
  else none

/-- The `n` addresses from `a` upward, "computed in the naturals with no truncation" (R200). -/
abbrev addrs (a n : Nat) : List Nat := List.range' a n

/-- What reading `n` bytes from `a` raises: "checks every address, lowest first, and raises the first condition found"
(R64, R200). -/
def checkReads (a n : Nat) : Option Raise := (addrs a n).findSome? checkRead

/-- What storing `n` bytes from `a` raises (R64, R200). -/
def checkWrites (c : Config) (a n : Nat) : Option Raise := (addrs a n).findSome? (checkWrite c)

/-- The `n` bytes from `a` upward. -/
def State.readBytes (s : State) (a n : Nat) : List Byte := (addrs a n).map s.byteAt

/-- Store bytes from `a` upward, lowest address first (R68). -/
def State.storeBytes (s : State) (a : Nat) : List Byte → State
  | [] => s
  | b :: rest => (s.setByte a b).storeBytes (a + 1) rest

/-! ## General registers (R21) -/

/-- `V[r]`. -/
def State.readV (s : State) (r : Reg) : Byte := s.v[r.val]

/-- `V[r] <- b`. -/
def State.writeV (s : State) (r : Reg) (b : Byte) : State := { s with v := s.v.set r.val b }

/-- `V[r] <- b; VF <- flag`, the flag last, so that it stays when r is VF (R22, R171). -/
def State.writeVFlag (s : State) (r : Reg) (b flag : Byte) : State := (s.writeV r b).writeV VF flag

/-- Write consecutive registers from number `r` upward, up to VF. -/
def State.loadV (s : State) (r : Nat) : List Byte → State
  | [] => s
  | b :: rest => (if h : r < 16 then s.writeV ⟨r, h⟩ b else s).loadV (r + 1) rest

/-- The registers V0 to Vx, x + 1 values (R205). -/
def State.regsUpTo (s : State) (x : Reg) : List Byte := s.v.toList.take (x.val + 1)

/-! ## Index register, timers -/

/-- `I <- w` (R24). -/
def State.setI (s : State) (w : Word) : State := { s with i := w }

/-- `DT <- b` (R27). -/
def State.setDT (s : State) (b : Byte) : State := { s with dt := b }

/-- `ST <- b` (R28). -/
def State.setST (s : State) (b : Byte) : State := { s with st := b }

/-! ## Program counter -/

/-- `PC <- w`; the width of the word takes every write `mod 65536` (R23). -/
def State.setPC (s : State) (w : Word) : State := { s with pc := w }

/-- `PC <- (PC + 2) mod 65536` (R123). -/
def State.advance (s : State) : State := s.setPC (s.pc + 2)

/-- The end of a skip: PC + 4 when the condition holds, else PC + 2 (R124). -/
def State.skipIf (s : State) (cond : Bool) : State := if cond then s.setPC (s.pc + 4) else s.setPC (s.pc + 2)

/-! ## Call stack (R25, R26) -/

/-- Push an entry; none when the stack is full. -/
def State.push? (s : State) (w : Word) : Option State :=
  if h : s.sp.val < 16 then
    some { s with stack := s.stack.set s.sp.val w, sp := ⟨s.sp.val + 1, by omega⟩ }
  else none

/-- Pop an entry, which stays in its place; none when the stack is empty. -/
def State.pop? (s : State) : Option (Word × State) :=
  if h : 0 < s.sp.val then
    some (s.stack[s.sp.val - 1], { s with sp := ⟨s.sp.val - 1, by omega⟩ })
  else none

/-! ## Framebuffer (R30) -/

/-- `fb[p]` of the 2048 pixels (`FB_SIZE`), pixel p at column `p mod 64` and row `p div 64` (R30, R230). -/
def Framebuffer.pixel (fb : Framebuffer) (p : Nat) : Bool :=
  if h : p < 2048 then fb[p / 64].getLsbD (p % 64) else false

/-- `fb[p] <- fb[p] XOR 1`. -/
def Framebuffer.toggle (fb : Framebuffer) (p : Nat) : Framebuffer :=
  if h : p < 2048 then fb.set (p / 64) (fb[p / 64] ^^^ BitVec.twoPow 64 (p % 64)) else fb

/-- Every pixel 0. -/
def Framebuffer.clear : Framebuffer := Vector.replicate 32 0

/-- The framebuffer becomes `fb`, and drawFlag is set: "set whenever the framebuffer changes" (R29). -/
def State.redraw (s : State) (fb : Framebuffer) : State := { s with fb := fb, drawFlag := true }

/-! ## Keypad (R31) -/

/-- `key[k]`. -/
def State.pressed (s : State) (k : Fin 16) : Bool := s.key[k.val]

/-- `key[k] <- b`, which only the host's operations do. -/
def State.setKey (s : State) (k : Fin 16) (b : Bool) : State := { s with key := s.key.set k.val b }

/-- "The least k in 0..15 with key[k]", if there is one (R256). -/
def State.leastPressed (s : State) : Option (Fin 16) := (List.finRange 16).find? s.pressed

/-! ## Random source (R32) -/

/-- `draw()`: the byte of this draw, which nothing constrains. -/
def State.drawnByte (s : State) : Byte := Config.drawByte s.rng.seed s.rng.draws

/-- The random source after one draw. -/
def State.advanceRng (s : State) : State := { s with rng := { s.rng with draws := s.rng.draws + 1 } }

end Sys2Proof.Machine
end

