-- ==== Sys2Proof/Machine/Operands.lean ====
section
/-! DEFINITION. The operand forms: what an instruction takes from its fields and from the state before it (30_encoding.md
R93, 43_index_memory.md R200, 44_display.md R230). Registers named by x and y are `State.readV`. -/

namespace Sys2Proof.Machine

/-- The effective address base of the instructions that access memory: I as a natural number (R200). -/
def State.base (s : State) : Nat := s.i.toNat

/-- How many registers Fx55 and Fx65 move: V0 to Vx, x + 1 of them (R205, R206). -/
def regCount (x : Reg) : Nat := x.val + 1

/-- `zext(nnn)`, the operand of 1nnn, 2nnn and Annn (R93). -/
def addrOperand (nnn : Addr) : Word := nnn.toWord

/-- `(nnn + V[0]) mod 65536`, the target of Bnnn, not truncated to 12 bits (R144). -/
def offsetTarget (s : State) (nnn : Addr) : Word := BitVec.ofNat 16 (nnn.toNat + (s.readV V0).toNat)

/-- The source of 8xyE (R182). -/
def shlSource (s : State) (x y : Reg) : Byte :=
  match s.cfg.shlSource with
  | .vx => s.readV x
  | .vy => s.readV y

/-- The key named by V[x], when it names one of the sixteen (R251, R252). -/
def keyOperand (s : State) (x : Reg) : Option (Fin 16) :=
  if h : (s.readV x).toNat < 16 then some ⟨(s.readV x).toNat, h⟩ else none

/-- The glyph address `V[x] * 5`, of the whole of V[x] (R203). -/
def glyphAddr (b : Byte) : Word := BitVec.ofNat 16 (b.toNat * 5)

/-- The decimal digits of a byte: hundreds, tens, ones (R204). -/
def bcdDigits (b : Byte) : List Byte :=
  [BitVec.ofNat 8 (b.toNat / 100), BitVec.ofNat 8 (b.toNat / 10 % 10), BitVec.ofNat 8 (b.toNat % 10)]

/-- The framebuffer index of a screen position: "computed in the naturals", reduced mod 2048 only (R230). -/
def pixelIndex (c r : Nat) : Nat := (c + r * 64) % 2048

/-- Bit `7 - col` of a sprite byte: the most significant bit is the leftmost pixel (R231). -/
def spriteBit (b : Byte) (col : Nat) : Bool := b.getLsbD (7 - col)

end Sys2Proof.Machine
end

