-- ==== Sys2Proof/Machine/Flags.lean ====
section
/-! DEFINITION. The flag computations: what each of the seven instructions of 10_state.md R22 writes to VF, and the
results beside them. Every one is computed exactly, in the naturals or the integers, and narrowed at the end
(00_scope.md R8, 42_alu.md R170). -/

namespace Sys2Proof.Machine

/-- A flag as the byte that VF holds. -/
def flagByte (b : Bool) : Byte := if b then 1 else 0

/-- `(a + b) mod 256` (R173, R178). -/
def addResult (a b : Byte) : Byte := BitVec.ofNat 8 (a.toNat + b.toNat)

/-- `(a - b) mod 256`, of a difference that can be negative (R170, R179, R181). -/
def subResult (a b : Byte) : Byte := BitVec.ofInt 8 ((a.toNat : Int) - (b.toNat : Int))

/-- `a div 2` (R180). -/
def shrResult (a : Byte) : Byte := BitVec.ofNat 8 (a.toNat / 2)

/-- `(a * 2) mod 256` (R182). -/
def shlResult (a : Byte) : Byte := BitVec.ofNat 8 (a.toNat * 2)

/-- The carry of 8xy4: 1 "iff unsigned sum > 255" (R178). -/
def carryFlag (a b : Byte) : Byte := flagByte (decide (a.toNat + b.toNat > 255))

/-- The flag of 8xy5 (a = Vx, b = Vy) and 8xy7 (a = Vy, b = Vx): 1 iff a > b, strictly (R179, R181). -/
def greaterFlag (a b : Byte) : Byte := flagByte (decide (a.toNat > b.toNat))

/-- The flag of 8xy6: the "low bit of Vx before shift" (R180). -/
def lowBitFlag (a : Byte) : Byte := BitVec.ofNat 8 (a.toNat % 2)

/-- The flag of 8xyE: the "high bit of Vx before shift", whatever the source of the result (R182). -/
def highBitFlag (a : Byte) : Byte := BitVec.ofNat 8 (a.toNat / 128 % 2)

/-- `I + V[x]` in the naturals (R202). -/
def indexSum (i : Word) (b : Byte) : Nat := i.toNat + b.toNat

/-- The flag of Fx1E: 1 "iff the unsigned sum exceeds 0xFFF" (R202). -/
def indexFlag (i : Word) (b : Byte) : Byte := flagByte (decide (indexSum i b > 0xFFF))

end Sys2Proof.Machine
end

