-- ==== Sys2Proof/Machine/Alu.lean ====
section
/-! DEFINITION. Register loads, arithmetic, logic, shifts and random (42_alu.md). Every operand is read from the state
before the instruction; where VF is also written as a flag, it is written last (R171). -/

namespace Sys2Proof.Machine

/-- `6xkk` LD Vx, byte (R172). -/
def execLdByte (x : Reg) (kk : Byte) (s : State) : Outcome := .next (s.writeV x kk).advance

/-- `7xkk` ADD Vx, byte, with no flag effect (R173). -/
def execAddByte (x : Reg) (kk : Byte) (s : State) : Outcome := .next (s.writeV x (addResult (s.readV x) kk)).advance

/-- `8xy0` LD Vx, Vy (R174). -/
def execLdReg (x y : Reg) (s : State) : Outcome := .next (s.writeV x (s.readV y)).advance

/-- `8xy1` OR Vx, Vy; VF is not reset (R175). -/
def execOrReg (x y : Reg) (s : State) : Outcome := .next (s.writeV x (s.readV x ||| s.readV y)).advance

/-- `8xy2` AND Vx, Vy; VF is not reset (R176). -/
def execAndReg (x y : Reg) (s : State) : Outcome := .next (s.writeV x (s.readV x &&& s.readV y)).advance

/-- `8xy3` XOR Vx, Vy; VF is not reset (R177). -/
def execXorReg (x y : Reg) (s : State) : Outcome := .next (s.writeV x (s.readV x ^^^ s.readV y)).advance

/-- `8xy4` ADD Vx, Vy, with carry (R178). -/
def execAddReg (x y : Reg) (s : State) : Outcome :=
  .next (s.writeVFlag x (addResult (s.readV x) (s.readV y)) (carryFlag (s.readV x) (s.readV y))).advance

/-- `8xy5` SUB Vx, Vy (R179). -/
def execSub (x y : Reg) (s : State) : Outcome :=
  .next (s.writeVFlag x (subResult (s.readV x) (s.readV y)) (greaterFlag (s.readV x) (s.readV y))).advance

/-- `8xy6` SHR Vx; y is ignored (R180). -/
def execShr (x _y : Reg) (s : State) : Outcome :=
  .next (s.writeVFlag x (shrResult (s.readV x)) (lowBitFlag (s.readV x))).advance

/-- `8xy7` SUBN Vx, Vy (R181). -/
def execSubn (x y : Reg) (s : State) : Outcome :=
  .next (s.writeVFlag x (subResult (s.readV y) (s.readV x)) (greaterFlag (s.readV y) (s.readV x))).advance

/-- `8xyE` SHL Vx (R182). -/
def execShl (x y : Reg) (s : State) : Outcome :=
  .next (s.writeVFlag x (shlResult (shlSource s x y)) (highBitFlag (s.readV x))).advance

/-- `Cxkk` RND Vx, byte: one draw, even when kk is 0 (R183). -/
def execRnd (x : Reg) (kk : Byte) (s : State) : Outcome := .next (s.writeV x (s.drawnByte &&& kk)).advanceRng.advance

end Sys2Proof.Machine
end

