-- ==== Sys2Proof/Machine/ControlFlow.lean ====
section
/-! DEFINITION. Return, jumps, call and the register and immediate skips (41_control_flow.md). -/

namespace Sys2Proof.Machine

/-- `00EE` RET (R141): PC becomes the popped entry plus 2. -/
def execRet (s : State) : Outcome :=
  match s.pop? with
  | some (t, s') => .next (s'.setPC (t + 2))
  | none => raise .stackUnderflow s

/-- `1nnn` JP addr (R142). -/
def execJp (nnn : Addr) (s : State) : Outcome := .next (s.setPC (addrOperand nnn))

/-- `2nnn` CALL addr (R143): the address of this 2nnn is pushed. -/
def execCall (nnn : Addr) (s : State) : Outcome :=
  match s.push? s.pc with
  | some s' => .next (s'.setPC (addrOperand nnn))
  | none => raise .stackOverflow s

/-- `Bnnn` JP V0, addr (R144). -/
def execJpV0 (nnn : Addr) (s : State) : Outcome := .next (s.setPC (offsetTarget s nnn))

/-- `3xkk` SE Vx, byte (R145). -/
def execSeByte (x : Reg) (kk : Byte) (s : State) : Outcome := .next (s.skipIf (s.readV x == kk))

/-- `4xkk` SNE Vx, byte (R146). -/
def execSneByte (x : Reg) (kk : Byte) (s : State) : Outcome := .next (s.skipIf (s.readV x != kk))

/-- `5xy0` SE Vx, Vy (R147). -/
def execSeReg (x y : Reg) (s : State) : Outcome := .next (s.skipIf (s.readV x == s.readV y))

/-- `9xy0` SNE Vx, Vy (R148). -/
def execSneReg (x y : Reg) (s : State) : Outcome := .next (s.skipIf (s.readV x != s.readV y))

end Sys2Proof.Machine
end

