-- ==== Sys2Proof/Machine/Display.lean ====
section
/-! DEFINITION. The display instructions (44_display.md). -/

namespace Sys2Proof.Machine

/-- What drawing has come to: the framebuffer and whether a set pixel was toggled. -/
structure Canvas where
  fb : Framebuffer
  collision : Bool
  deriving DecidableEq, Repr

/-- One bit of a sprite: a set bit toggles its pixel, and collides when the pixel was 1 (R233). -/
def Canvas.drawBit (b : Byte) (xs ys row : Nat) (d : Canvas) (col : Nat) : Canvas :=
  if spriteBit b col then
    let p := pixelIndex (xs + col) (ys + row)
    { fb := d.fb.toggle p, collision := d.collision || d.fb.pixel p }
  else d

/-- One row of a sprite: its eight columns from the left (R231, R233). -/
def Canvas.drawRow (b : Byte) (xs ys row : Nat) (d : Canvas) : Canvas :=
  (List.range 8).foldl (Canvas.drawBit b xs ys row) d

/-- The rows of a sprite, the first at `row`, with the top left pixel of row 0 at (xs, ys) (R233). -/
def Canvas.drawRows (xs ys row : Nat) : List Byte → Canvas → Canvas
  | [], d => d
  | b :: rest, d => Canvas.drawRows xs ys (row + 1) rest (Canvas.drawRow b xs ys row d)

/-- `00E0` CLS (R232). -/
def execCls (s : State) : Outcome := .next (s.redraw Framebuffer.clear).advance

/-- `Dxyn` DRW Vx, Vy, nibble: the coordinates are read before VF is written; VF is written last and drawFlag always set
(R233). -/
def execDrw (x y : Reg) (n : Nibble) (s : State) : Outcome :=
  match checkReads s.base n.toNat with
  | some c => raise c s
  | none =>
    let d := Canvas.drawRows (s.readV x).toNat (s.readV y).toNat 0 (s.readBytes s.base n.toNat) ⟨s.fb, false⟩
    .next ((s.redraw d.fb).writeV VF (flagByte d.collision)).advance

end Sys2Proof.Machine
end

