-- ==== Sys2Proof/Machine/IndexMemory.lean ====
section
/-! DEFINITION. The index register, and loads and stores through it (43_index_memory.md). Every address is checked before
any state changes (R64, R200); no access modifies I (R200). -/

namespace Sys2Proof.Machine

/-- `Annn` LD I, addr (R201). -/
def execLdI (nnn : Addr) (s : State) : Outcome := .next (s.setI (addrOperand nnn)).advance

/-- `Fx1E` ADD I, Vx: I is the sum mod 65536, not masked to 12 bits; VF last (R202). -/
def execAddI (x : Reg) (s : State) : Outcome :=
  .next ((s.setI (BitVec.ofNat 16 (indexSum s.i (s.readV x)))).writeV VF (indexFlag s.i (s.readV x))).advance

/-- `Fx29` LD F, Vx (R203). -/
def execLdF (x : Reg) (s : State) : Outcome := .next (s.setI (glyphAddr (s.readV x))).advance

/-- `Fx33` LD B, Vx: the decimal digits at I, I+1, I+2 (R204). -/
def execLdB (x : Reg) (s : State) : Outcome :=
  match checkWrites s.cfg s.base 3 with
  | some c => raise c s
  | none => .next (s.storeBytes s.base (bcdDigits (s.readV x))).advance

/-- `Fx55` LD [I], Vx: V0 to Vx at I to I+x (R205). -/
def execStoreRegs (x : Reg) (s : State) : Outcome :=
  match checkWrites s.cfg s.base (regCount x) with
  | some c => raise c s
  | none => .next (s.storeBytes s.base (s.regsUpTo x)).advance

/-- `Fx65` LD Vx, [I]: V0 to Vx from I to I+x (R206). -/
def execLoadRegs (x : Reg) (s : State) : Outcome :=
  match checkReads s.base (regCount x) with
  | some c => raise c s
  | none => .next (s.loadV 0 (s.readBytes s.base (regCount x))).advance

end Sys2Proof.Machine
end

