-- ==== Sys2Proof/Machine/KeypadTimers.lean ====
section
/-! DEFINITION. The keypad and timer instructions (45_keypad_timers.md). Keys are read as they stand when the step runs
(R250). -/

namespace Sys2Proof.Machine

/-- `Ex9E` SKP Vx (R251). -/
def execSkp (x : Reg) (s : State) : Outcome :=
  match keyOperand s x with
  | some k => .next (s.skipIf (s.pressed k))
  | none => raise (.invalidKeyCode (s.readV x)) s

/-- `ExA1` SKNP Vx (R252). -/
def execSknp (x : Reg) (s : State) : Outcome :=
  match keyOperand s x with
  | some k => .next (s.skipIf (!s.pressed k))
  | none => raise (.invalidKeyCode (s.readV x)) s

/-- `Fx07` LD Vx, DT (R253). -/
def execLdVxDt (x : Reg) (s : State) : Outcome := .next (s.writeV x s.dt).advance

/-- `Fx15` LD DT, Vx (R254). -/
def execLdDtVx (x : Reg) (s : State) : Outcome := .next (s.setDT (s.readV x)).advance

/-- `Fx18` LD ST, Vx (R255). -/
def execLdStVx (x : Reg) (s : State) : Outcome := .next (s.setST (s.readV x)).advance

/-- `Fx0A` LD Vx, K: with no key pressed nothing changes, PC included; else the least pressed key is stored (R256). -/
def execLdVxK (x : Reg) (s : State) : Outcome :=
  match s.leastPressed with
  | some k => .next (s.writeV x (BitVec.ofNat 8 k.val)).advance
  | none => .next s

end Sys2Proof.Machine
end

