-- ==== Sys2Proof/Machine/Cycle.lean ====
section
/-! DEFINITION. The step of 40_step.md R120 to R131 with its own outcomes: fetch, decode, the skip of an unmapped word and
execution. Machine/Step.lean gives the same step in the host's three outcomes. -/

namespace Sys2Proof.Machine

/-- What the fetch raises: PC before PC + 1 (R121). -/
def checkFetch (pc : Word) : Option Raise := checkReads pc.toNat 2

/-- The word at an address, high byte first (R66, R121). -/
def State.wordAt (s : State) (a : Nat) : Word := wordOfBytes (s.byteAt a) (s.byteAt (a + 1))

/-- The fetch: the word at PC, or what it raises (R121). It changes no state. -/
def fetch (s : State) : Except Raise Word :=
  match checkFetch s.pc with
  | some c => .error c
  | none => .ok (s.wordAt s.pc.toNat)

/-- The outcome of a step (R128). -/
inductive StepOutcome where
  /-- The instruction executed; this includes a waiting Fx0A. -/
  | ok
  /-- The word at `pc` is unmapped; the state advanced PC by 2 (R127). -/
  | unmapped (pc w : Word)
  /-- The step failed; the state is unchanged (R129). -/
  | fail (c : Fault)
  /-- The model has no meaning for the instruction; no step ends so, since every instruction has one. -/
  | refused (r : Refusal)
  deriving DecidableEq, Repr

/-- An unmapped word: PC + 2 and nothing else (R127). -/
def skipUnmapped (s : State) : State := s.advance

/-- The step as R131 writes it: the state after it and its outcome. -/
def stepOutcome (s : State) : State × StepOutcome :=
  match fetch s with
  | .error c => (s, .fail (c.at s.pc))
  | .ok w =>
    match decode s.cfg w with
    | .unmapped => (skipUnmapped s, .unmapped s.pc w)
    | .instr ins =>
      match exec ins s with
      | .next s' => (s', .ok)
      | .fault f => (s, .fail f)
      | .refused r => (s, .refused r)

/-- The word of a table row of `nbits` bits stored where the next step fetches it, when a word fits there. -/
def State.placeWord (s : State) (nbits w : Nat) : State :=
  let word := BitVec.ofNat 16 (w % 2 ^ nbits)
  if s.pc.toNat ≤ 0xFFE then s.storeBytes s.pc.toNat [highByte word, lowByte word] else s

end Sys2Proof.Machine
end

