-- ==== Sys2Proof/Machine/Step.lean ====
section
/-! DEFINITION. The step in the host's three outcomes, and the placing of a word where the next step fetches it. -/

namespace Sys2Proof.Machine

/-- One step. A step that executes its instruction and a step that skips an unmapped word both give a next state (R127: the
report "is not a failure"; it stands in `stepOutcome`, log entry 3); a failing step is a fault and its state is the one
before it (R129). -/
def step (s : State) : Host.Outcome State Fault Refusal :=
  match stepOutcome s with
  | (s', .ok) => .next s'
  | (s', .unmapped _ _) => .next s'
  | (_, .fail f) => .fault f
  | (_, .refused r) => .refused r

/-- `s` with the word of a table row stored at PC, so that the next step runs it. A program comes to run by the host's
`load`, which this stands for (log entry 4). Nothing is stored when PC is above 0xFFE, where no word can be fetched. -/
def State.withFetchWord (s : State) (nbits w : Nat) : State := s.placeWord nbits w

end Sys2Proof.Machine
end

