-- ==== Sys2Proof/Machine/HostInterface.lean ====
section
/-! DEFINITION. The block's interface (60_exceptions.md R280, R281, R290, R297, R298, R300; 70_reset_and_hazards.md R334):
every operation of the host as one atomic transition with its outcome, and a run as a list of operations in any order
(R340). Construction is `State.construct`. -/

namespace Sys2Proof.Machine

/-- The largest program `load` takes, `ROM_MAX` = 4096 - 512 (R6, R334). -/
abbrev romMax : Nat := 3584

/-- Where programs are loaded, `PROGRAM_START` (R6, R334). -/
abbrev programStart : Nat := 0x200

/-- The operations of R300. A key code and a pixel index are integers, since the host may give one that is out of range or
negative (R289, R297). -/
inductive HostOp where
  | load (bytes : List Byte)
  | step
  | tickTimers
  | pressKey (code : Int)
  | releaseKey (code : Int)
  | pixel (index : Int)
  | drawFlag
  | clearDrawFlag
  | soundTimer
  deriving DecidableEq, Repr

/-- What an operation returns to the host: the table of R281. -/
inductive HostResult where
  | ok
  /-- `step` met an unmapped word, which is not a failure (R282). -/
  | unmapped (pc w : Word)
  /-- `step` failed (R283 to R287). -/
  | fail (c : Fault)
  /-- `step` met an instruction with no meaning in the model; no step does. -/
  | refused (r : Refusal)
  /-- The answer of `pixel`. -/
  | bit (b : Bool)
  /-- The answer of `draw_flag`. -/
  | flag (b : Bool)
  /-- The answer of `sound_timer`. -/
  | byte (b : Byte)
  /-- `load` of too many bytes, which writes nothing (R288). -/
  | romTooLarge (len : Nat)
  /-- A key notification outside [0,15], which changes nothing (R287, R297). -/
  | invalidKeyCode (code : Int)
  /-- A pixel outside [0,2047] (R289). -/
  | invalidPixelIndex (index : Int)
  deriving DecidableEq, Repr

/-- One timer's tick: down by 1, "floored at 0" (R290). -/
def tickByte (b : Byte) : Byte := BitVec.ofNat 8 (b.toNat - 1)

/-- `tick_timers()` (R290). -/
def tickTimers (s : State) : State := { s with dt := tickByte s.dt, st := tickByte s.st }

/-- `load(bytes)` (R334): all of the bytes from 0x200, or nothing. At PC = 0x1FF the low byte of the fetched word is the byte at
0x200 (R121), so a load can end a repeated failure there too, which the derived sentence of R296 leaves out: the model follows
R334 and R121 (DEDUCED, log entry 10). -/
def load (bytes : List Byte) (s : State) : State × HostResult :=
  if bytes.length > romMax then (s, .romTooLarge bytes.length) else (s.storeBytes programStart bytes, .ok)

/-- The key that a code of a notification names (R297). -/
def keyOfCode (code : Int) : Option (Fin 16) :=
  if h : 0 ≤ code ∧ code ≤ 15 then some ⟨code.toNat, by omega⟩ else none

/-- `press_key(code)` with `b` true, `release_key(code)` with `b` false (R297). -/
def notifyKey (code : Int) (b : Bool) (s : State) : State × HostResult :=
  match keyOfCode code with
  | some k => (s.setKey k b, .ok)
  | none => (s, .invalidKeyCode code)

/-- `pixel(index)` (R289, R298). -/
def queryPixel (index : Int) (s : State) : HostResult :=
  if 0 ≤ index ∧ index ≤ 2047 then .bit (s.fb.pixel index.toNat) else .invalidPixelIndex index

/-- `clear_draw_flag()` (R298). -/
def clearDrawFlag (s : State) : State := { s with drawFlag := false }

/-- The outcome of a step as the host receives it (R281). -/
def StepOutcome.toResult : StepOutcome → HostResult
  | .ok => .ok
  | .unmapped pc w => .unmapped pc w
  | .fail c => .fail c
  | .refused r => .refused r

/-- One operation of the host: the state after it and what it returns (R281, R300). -/
def perform (op : HostOp) (s : State) : State × HostResult :=
  match op with
  | .load bytes => load bytes s
  | .step => ((stepOutcome s).1, (stepOutcome s).2.toResult)
  | .tickTimers => (tickTimers s, .ok)
  | .pressKey code => notifyKey code true s
  | .releaseKey code => notifyKey code false s
  | .pixel index => (s, queryPixel index s)
  | .drawFlag => (s, .flag s.drawFlag)
  | .clearDrawFlag => (clearDrawFlag s, .ok)
  | .soundTimer => (s, .byte s.st)

/-- A run: the operations in their order, the state after them and what each returned (R70, R346). -/
def performAll : List HostOp → State → State × List HostResult
  | [], s => (s, [])
  | op :: rest, s =>
    let (s', r) := perform op s
    let (t, rs) := performAll rest s'
    (t, r :: rs)

end Sys2Proof.Machine
end

