-- ==== Sys2Proof/Safety.lean ====
section
/-! DEFINITION. The terms that claims are stated in: what a step may change (the frame), the invariant of 10_state.md R40,
runs and reachable states, a waiting core (R35) and the usual end of a run (70_reset_and_hazards.md R346). -/

namespace Sys2Proof.Machine

/-! ## Sprites -/

/-- Bit (row, col) of the n-row sprite at I, drawn at V[x], V[y], is set and falls on pixel p (R230, R231, R233). -/
def spriteSets (s : State) (x y : Reg) (n : Nibble) (row col p : Nat) : Prop :=
  row < n.toNat ∧ col < 8 ∧ (s.byteAt (s.i.toNat + row)).getLsbD (7 - col) = true ∧
    ((s.readV x).toNat + col + ((s.readV y).toNat + row) * 64) % 2048 = p

/-- Some set bit of the sprite falls on pixel p. -/
def spriteCovers (s : State) (x y : Reg) (n : Nibble) (p : Nat) : Prop := ∃ row col, spriteSets s x y n row col p

/-! ## Frames -/

/-- Which pieces of state a transition may write. PC is left out: 40_step.md R123 to R126 say what becomes of it. -/
structure Changes where
  /-- The general registers. -/
  v : List Reg := []
  /-- I. -/
  i : Bool := false
  /-- SP. -/
  sp : Bool := false
  /-- The stack entries, by index. -/
  entries : List Nat := []
  /-- The memory addresses stored to. -/
  mem : List Nat := []
  /-- DT. -/
  dt : Bool := false
  /-- ST. -/
  st : Bool := false
  /-- The pixels of the framebuffer, by index. -/
  pixels : Nat → Prop := fun _ => False
  /-- drawFlag. -/
  drawFlag : Bool := false
  /-- The random source. -/
  rng : Bool := false

/-- From `s` to `t` nothing but PC and what `c` names has changed; the keypad and the parameters never may (R31, R36). -/
structure OnlyChanges (c : Changes) (s t : State) : Prop where
  regs : ∀ r, r ∉ c.v → t.readV r = s.readV r
  index : c.i = false → t.i = s.i
  pointer : c.sp = false → t.sp = s.sp
  stack : ∀ j, j ∉ c.entries → t.stack[j]? = s.stack[j]?
  bytes : ∀ a, a ∉ c.mem → t.byteAt a = s.byteAt a
  delay : c.dt = false → t.dt = s.dt
  sound : c.st = false → t.st = s.st
  screen : ∀ p, ¬c.pixels p → t.fb.pixel p = s.fb.pixel p
  dirty : c.drawFlag = false → t.drawFlag = s.drawFlag
  random : c.rng = false → t.rng = s.rng
  keys : t.key = s.key
  params : t.cfg = s.cfg

/-- The writers of each piece of state: the lists of R21, R22, R24, R25, R27 to R30, R32, R39 and 20_memory.md R65, with the
entry that 2nnn pushes (R143), the pixels under the set bits of a sprite (R233), and nothing for an Fx0A that waits (R126). -/
def changesOf (i : Instr) (s : State) : Changes :=
  match i with
  | .cls => { pixels := fun _ => True, drawFlag := true }
  | .ret => { sp := true }
  | .call _ => { sp := true, entries := [s.sp.val] }
  | .jp _ | .jpV0 _ => {}
  | .seByte _ _ | .sneByte _ _ | .seReg _ _ | .sneReg _ _ | .skp _ | .sknp _ => {}
  | .ldByte x _ | .addByte x _ | .ldReg x _ | .orReg x _ | .andReg x _ | .xorReg x _ => { v := [x] }
  | .ldVxDt x => { v := [x] }
  | .ldVxK x => { v := if ∃ k, s.pressed k = true then [x] else [] }
  | .addReg x _ | .sub x _ | .shr x _ | .subn x _ | .shl x _ => { v := [x, VF] }
  | .rnd x _ => { v := [x], rng := true }
  | .ldI _ | .ldF _ => { i := true }
  | .addI _ => { v := [VF], i := true }
  | .ldB _ => { mem := addrs s.base 3 }
  | .storeRegs x => { mem := addrs s.base (regCount x) }
  | .loadRegs x => { v := (List.finRange 16).filter (fun r => r ≤ x) }
  | .drw x y n => { v := [VF], pixels := spriteCovers s x y n, drawFlag := true }
  | .ldDtVx _ => { dt := true }
  | .ldStVx _ => { st := true }

/-- The instructions that set PC to a target of their own: "00EE, 1nnn, 2nnn, Bnnn" (R123, R125). -/
def setsTarget : Instr → Bool
  | .ret | .jp _ | .call _ | .jpV0 _ => true
  | .cls | .seByte _ _ | .sneByte _ _ | .seReg _ _ | .ldByte _ _ | .addByte _ _ | .ldReg _ _ | .orReg _ _ => false
  | .andReg _ _ | .xorReg _ _ | .addReg _ _ | .sub _ _ | .shr _ _ | .subn _ _ | .shl _ _ | .sneReg _ _ | .ldI _ => false
  | .rnd _ _ | .drw _ _ _ | .skp _ | .sknp _ | .ldVxDt _ | .ldVxK _ | .ldDtVx _ | .ldStVx _ | .addI _ | .ldF _ => false
  | .ldB _ | .storeRegs _ | .loadRegs _ => false

/-- The skip family, "3xkk, 4xkk, 5xy0, 9xy0, Ex9E and ExA1", when its condition holds (R124). -/
def takesSkip (i : Instr) (s : State) : Bool :=
  match i with
  | .seByte x kk => s.readV x == kk
  | .sneByte x kk => s.readV x != kk
  | .seReg x y => s.readV x == s.readV y
  | .sneReg x y => s.readV x != s.readV y
  | .skp x => s.key[(s.readV x).toNat]? == some true
  | .sknp x => s.key[(s.readV x).toNat]? == some false
  | .cls | .ret | .jp _ | .call _ | .ldByte _ _ | .addByte _ _ | .ldReg _ _ | .orReg _ _ | .andReg _ _ => false
  | .xorReg _ _ | .addReg _ _ | .sub _ _ | .shr _ _ | .subn _ _ | .shl _ _ | .ldI _ | .jpV0 _ | .rnd _ _ => false
  | .drw _ _ _ | .ldVxDt _ | .ldVxK _ | .ldDtVx _ | .ldStVx _ | .addI _ | .ldF _ | .ldB _ | .storeRegs _ => false
  | .loadRegs _ => false

/-- The instruction is an Fx0A that waits: no key is pressed (R126). -/
def waitsForKey (i : Instr) (s : State) : Prop := (∃ x, i = .ldVxK x) ∧ ∀ k, s.pressed k = false

/-- An outcome with its next state changed by `f`; a fault or a refusal stays as it is. -/
def mapNext (f : State → State) : Outcome → Outcome
  | .next t => .next (f t)
  | .fault c => .fault c
  | .refused r => .refused r

/-! ## The invariant and reachable states -/

/-- What holds of every state reachable from construction: R40, the bound on PC of R23 and R140, and the canonical form of
memory, which is the model's own (log entry 6). SP in [0,16] and pixels of 0 or 1 are in the types of State. -/
structure State.Inv (s : State) : Prop where
  /-- Memory is in its canonical form: the model's choice (log entry 6), no rule of the spec. -/
  memory : Memory.wf s.cfg.font s.mem
  /-- "With `FONT_PROTECT = true`, `mem[0x000..0x04F]` equals `FONT`" (R40). -/
  font : s.cfg.fontProtect = true → ∀ a, (h : a < 80) → s.byteAt a = s.cfg.font[a / 5][a % 5]
  /-- "Every live `stack[j]` is at most 0xFFE" (R40). -/
  live : ∀ j, (h : j < 16) → j < s.sp.val → s.stack[j].toNat ≤ 0xFFE
  /-- "Every PC value the rules can write is at most 0x10FE" (R140). -/
  target : s.pc.toNat ≤ 0x10FE

/-- A state that some run of host operations reaches from construction (R40, R346). -/
def State.Reachable (s : State) : Prop :=
  ∃ (cfg : Config) (seed : Seed) (ops : List HostOp), s = (performAll ops (State.construct cfg seed)).1

/-- No step of the run reported `Fail` (R346). -/
def noFail (rs : List HostResult) : Prop := ∀ f, HostResult.fail f ∉ rs

/-! ## Waiting and ending -/

/-- The word at PC can be fetched and decodes as `ins`. -/
def State.atInstr (s : State) (ins : Instr) : Prop :=
  s.pc.toNat ≤ 0xFFE ∧ decode s.cfg (s.wordAt s.pc.toNat) = .instr ins

/-- "The core waits exactly when the word at PC decodes as Fx0A and no key is pressed" (R35). -/
def State.waiting (s : State) : Prop := ∃ x, s.atInstr (.ldVxK x) ∧ ∀ k, s.pressed k = false

/-- The usual end of a run: "the word at PC is `1nnn` with nnn = PC" (R346). -/
def State.atSelfJump (s : State) : Prop := ∃ nnn : Addr, s.atInstr (.jp nnn) ∧ nnn.toWord = s.pc

end Sys2Proof.Machine
end

