-- ==== Sys2Proof/Certificates/Slice0/Obligations.lean ====
section
/-! DEFINITION. The statements for the provers. Each docstring names the rule it formalises; where a clause rests on a
decision of the spec's own (92_eei_decisions.md) or on a choice of the model (notes/assumptions), it says so. -/

open Sys2Proof Sys2Proof.Machine

/-! ## Decoding and encoding -/

/-- Decoding the word of an instruction gives it back, with every operand at every value (R91, R92, R94, R95). -/
def Obligations.DecodeOfEncodeIsTheInstruction : Prop :=
  ∀ (c : Config) (i : Instr), i.wellFormed c = true → decode c (encode i) = .instr i

/-- A word that decodes is the word of its instruction, and matches the instruction's row (R94, R95): no bit of a decoded
word is dropped. -/
def Obligations.DecodedWordIsTheEncoding : Prop :=
  ∀ (c : Config) (w : Word) (i : Instr), decode c w = .instr i →
    i.wellFormed c = true ∧ encode i = w ∧ i.row.matches w = true

/-- "No two rows match the same word" (R95, which marks it as derived), and there are 34 rows. -/
def Obligations.NoTwoRowsMatchOneWord : Prop :=
  opcodeRows.length = 34 ∧
  opcodeRows.Pairwise (fun r q => ∀ w : Word, ¬(r.matches w = true ∧ q.matches w = true))

/-- The unmapped words are exactly those that match no row of the instruction set the parameters select (R94, R96). -/
def Obligations.UnmappedMeansNoRowMatches : Prop :=
  ∀ (c : Config) (w : Word), decode c w = .unmapped ↔ ∀ r ∈ c.opcodeRows, r.matches w = false

/-- Words of the spec's test vectors (95_test_vectors.md section 2), and 0xE5A1, the example word of R252, decode to what the
spec says they are (R94, R96). That 0xA300 is an instruction is the spec's decision D6, that 0x0123 is unmapped decision D7, and
that 0x5121 is unmapped decision D8 (log entry 5). -/
def Obligations.WordsOfTheVectorsDecode : Prop :=
  decode Config.default 0x00E0 = .instr .cls ∧ decode Config.default 0x2ABC = .instr (.call 0xABC) ∧
  decode Config.default 0x3142 = .instr (.seByte 1 0x42) ∧ decode Config.default 0x8014 = .instr (.addReg 0 1) ∧
  decode Config.default 0xA300 = .instr (.ldI 0x300) ∧ decode Config.default 0xCA0F = .instr (.rnd 10 0x0F) ∧
  decode Config.default 0xD125 = .instr (.drw 1 2 5) ∧ decode Config.default 0xE5A1 = .instr (.sknp 5) ∧
  decode Config.default 0xF265 = .instr (.loadRegs 2) ∧ decode Config.default 0x0123 = .unmapped ∧
  decode Config.default 0x5121 = .unmapped ∧ decode Config.default 0x800D = .unmapped ∧
  decode Config.default 0xE09F = .unmapped ∧ decode Config.default 0xF01F = .unmapped

/-! ## The step -/

/-- A step runs the instruction decoded from the two bytes at PC, high byte first, and adds nothing around it (R120, R121,
R131). That the high byte comes first is the spec's decision D1. -/
def Obligations.StepExecutesTheDecodedInstruction : Prop :=
  ∀ (s : State) (i : Instr), s.pc.toNat ≤ 0xFFE →
    decode s.cfg (BitVec.ofNat 16
      ((s.byteAt s.pc.toNat).toNat * 256 + (s.byteAt (s.pc.toNat + 1)).toNat)) = .instr i →
    step s = exec i s ∧ ∀ t, exec i s = .next t → stepOutcome s = (t, .ok)

/-- An unmapped word: PC + 2, no other state, and the report with the fetch address and the word (R127). -/
def Obligations.UnmappedWordIsSkippedAndReported : Prop :=
  ∀ (s : State) (w : Word), fetch s = .ok w → decode s.cfg w = .unmapped →
    (stepOutcome s).2 = .unmapped s.pc w ∧
    (stepOutcome s).1.pc.toNat = (s.pc.toNat + 2) % 65536 ∧
    (stepOutcome s).1.setPC s.pc = s

/-- A PC at which no whole word fits fails the fetch at the lowest address outside the space, and changes nothing (R121, R129;
the condition is the spec's decision D3). -/
def Obligations.FetchAboveTheTopFails : Prop :=
  ∀ s : State, 0xFFE < s.pc.toNat →
    step s = .fault (.addressOutOfRange s.pc (if s.pc.toNat = 0xFFF then 0x1000 else s.pc.toNat)) ∧
    (stepOutcome s).1 = s

/-- Every step ends in one way: executed, skipped with a report, or failed with the state unchanged and the condition
recording the address of its instruction; no step is refused (R128, R129; decisions D16 and D17). That both of the first
two are a next state of `step` is the model's choice (log entry 3). -/
def Obligations.StepRunsSkipsOrFailsCleanly : Prop :=
  ∀ s : State,
    (∃ t, step s = .next t ∧ (stepOutcome s = (t, .ok) ∨ ∃ w, stepOutcome s = (t, .unmapped s.pc w))) ∨
    (∃ f, step s = .fault f ∧ stepOutcome s = (s, .fail f) ∧ f.pc = s.pc)

/-- Construction meets the invariant, whatever the parameters and the seed: an intact font under protection, live stack entries
at most 0xFFE (R37, R40), PC at most 0x10FE (R23), and canonical memory, a clause that is the model's choice (log entry 6) and
no rule of the spec. -/
def Obligations.ConstructionMeetsTheInvariant : Prop :=
  ∀ (c : Config) (seed : Seed), (State.construct c seed).Inv

/-- Every step keeps the invariant: an intact font under protection, live stack entries at most 0xFFE (R40, which marks it as
derived), PC at most 0x10FE (R23, R140, which mark it as derived), and canonical memory, a clause that is the model's choice
(log entry 6) and no rule of the spec. -/
def Obligations.StepKeepsTheInvariant : Prop :=
  ∀ s t : State, s.Inv → step s = .next t → t.Inv

/-- The invariant holds of every state reachable from construction by the operations of R300, in any order (R40 for the font and
the live entries, R23 and R140 for PC). That memory is canonical in such a state is the model's choice (log entry 6) and no
rule of the spec. -/
def Obligations.ReachableStatesMeetTheInvariant : Prop :=
  ∀ s : State, s.Reachable → s.Inv

/-- "A step changes only the state that its instruction's rule writes, plus PC" (R130): the frame of every instruction, by the
writers listed in `changesOf`. So 00EE writes SP and no stack entry, 2nnn SP and the entry at SP, Dxyn the pixels under the
sprite's set bits, and an Fx0A with no key pressed nothing; an unmapped word writes PC alone, and drawFlag is never
cleared. -/
def Obligations.StepChangesOnlyWhatItsRuleWrites : Prop :=
  ∀ s t : State, step s = .next t →
    (s.drawFlag = true → t.drawFlag = true) ∧
    ((∃ i, decode s.cfg (s.wordAt s.pc.toNat) = .instr i ∧ OnlyChanges (changesOf i s) s t) ∨
     (decode s.cfg (s.wordAt s.pc.toNat) = .unmapped ∧ OnlyChanges {} s t))

/-- "Every instruction other than 00EE, 1nnn, 2nnn, Bnnn, a taken skip and a waiting Fx0A ends with PC + 2 mod 65536"; a taken
skip ends with PC + 4, and a waiting Fx0A with the state as it was (R123; R124 and R126 for the two exceptions). -/
def Obligations.OtherInstructionsAdvancePCByTwo : Prop :=
  ∀ (i : Instr) (s t : State), exec i s = .next t → setsTarget i = false →
    (waitsForKey i s → t = s) ∧
    (¬waitsForKey i s → t.pc.toNat = (s.pc.toNat + if takesSkip i s then 4 else 2) % 65536)

/-- The cause of every condition an instruction raises, and what it records (R283 to R287). The conditions are the spec's
decisions D3, D14, D15 and D16. -/
def Obligations.EveryFaultHasItsCause : Prop :=
  ∀ (i : Instr) (s : State) (f : Fault), exec i s = .fault f →
    match f with
    | .stackOverflow pc => pc = s.pc ∧ s.sp.val = 16 ∧ ∃ nnn, i = .call nnn
    | .stackUnderflow pc => pc = s.pc ∧ s.sp.val = 0 ∧ i = .ret
    | .addressOutOfRange pc a => pc = s.pc ∧ a = max s.i.toNat 0x1000 ∧
        ((∃ x y n, i = .drw x y n ∧ n ≠ 0 ∧ 0xFFF < s.i.toNat + n.toNat - 1) ∨
         (∃ x, i = .ldB x ∧ 0xFFF < s.i.toNat + 2) ∨
         (∃ x, (i = .storeRegs x ∨ i = .loadRegs x) ∧ 0xFFF < s.i.toNat + x.val))
    | .fontWriteViolation pc a => pc = s.pc ∧ a = s.i.toNat ∧ a < 0x50 ∧ s.cfg.fontProtect = true ∧
        ∃ x, i = .ldB x ∨ i = .storeRegs x
    | .invalidKeyCode pc code => pc = s.pc ∧ 15 < code.toNat ∧
        ∃ x, (i = .skp x ∨ i = .sknp x) ∧ code = s.readV x

/-- The random source "is read and advanced by Cxkk only" (R32): no other instruction's outcome depends on it. The form of the
source's state is the model's choice (log entry 2). -/
def Obligations.RandomSourceIsReadByRndAlone : Prop :=
  ∀ (i : Instr) (s : State) (g : Rng), (∀ x kk, i ≠ .rnd x kk) →
    exec i { s with rng := g } = mapNext (fun t => { t with rng := g }) (exec i s)

/-- "Ex9E, ExA1 and Fx0A read" the keypad (R31): no other instruction's outcome depends on it, and none writes it. -/
def Obligations.KeypadIsReadByThreeInstructions : Prop :=
  ∀ (i : Instr) (s : State) (k : Vector Bool 16), (∀ x, i ≠ .skp x ∧ i ≠ .sknp x ∧ i ≠ .ldVxK x) →
    exec i { s with key := k } = mapNext (fun t => { t with key := k }) (exec i s)

/-- "No instruction reads" ST (R28) or drawFlag (R29), and only Dxyn reads the framebuffer (R30): an instruction that does not
write one of them gives the same outcome whatever it holds, and one that writes it discards what it held. -/
def Obligations.SoundAndScreenAreOutputs : Prop :=
  ∀ (i : Instr) (s : State),
    (∀ b, ((∃ x, i = .ldStVx x) → exec i { s with st := b } = exec i s) ∧
      ((∀ x, i ≠ .ldStVx x) → exec i { s with st := b } = mapNext (fun t => { t with st := b }) (exec i s))) ∧
    (∀ d, (i = .cls ∨ (∃ x y n, i = .drw x y n) → exec i { s with drawFlag := d } = exec i s) ∧
      (i ≠ .cls → (∀ x y n, i ≠ .drw x y n) →
        exec i { s with drawFlag := d } = mapNext (fun t => { t with drawFlag := d }) (exec i s))) ∧
    (∀ fb, (i = .cls → exec i { s with fb := fb } = exec i s) ∧
      (i ≠ .cls → (∀ x y n, i ≠ .drw x y n) →
        exec i { s with fb := fb } = mapNext (fun t => { t with fb := fb }) (exec i s)))

/-- A waiting core: "Each step in that condition changes nothing" (R35, R126), however many steps the host asks for. -/
def Obligations.WaitingForAKeyChangesNothing : Prop :=
  ∀ (s : State), s.waiting → stepOutcome s = (s, .ok) ∧ ∀ k, Host.Core.run Sys2Proof.core k s = .next s

/-- "once `press_key(k)` is called, the next `step()` stores k in Vx and advances PC by 2" (R256, R304; decisions D13
and D34). -/
def Obligations.KeyPressEndsTheWait : Prop :=
  ∀ (s : State) (x : Reg) (code : Int), s.atInstr (.ldVxK x) → (∀ k, s.pressed k = false) → 0 ≤ code → code ≤ 15 →
    ∃ t, performAll [.pressKey code, .step] s = (t, [.ok, .ok]) ∧
      ((t.readV x).toNat : Int) = code ∧ t.pc = s.pc + 2 ∧
      (∀ k : Fin 16, t.pressed k = true ↔ (k.val : Int) = code) ∧ ∀ r, r ≠ x → t.readV r = s.readV r

/-- A jump to itself: "every step changes nothing" (R142, R346, which mark it as derived). -/
def Obligations.SelfJumpChangesNothing : Prop :=
  ∀ s : State, s.atSelfJump → ∀ k, Host.Core.run Sys2Proof.core k s = .next s

/-- Stepping without a load (R336, which marks it as derived): 1792 skips of unmapped words that change only PC, then a
failure at 0x1000. -/
def Obligations.SteppingWithoutALoadRunsToTheTop : Prop :=
  ∀ (c : Config) (seed : Seed),
    (∀ k, k ≤ 1792 → performAll (List.replicate k .step) (State.construct c seed) =
      ((State.construct c seed).setPC (BitVec.ofNat 16 (0x200 + 2 * k)),
       (List.range k).map fun j => .unmapped (BitVec.ofNat 16 (0x200 + 2 * j)) 0)) ∧
    step ((State.construct c seed).setPC 0x1000) = .fault (.addressOutOfRange 0x1000 0x1000)

/-! ## Control flow -/

/-- 1nnn (R142): PC becomes nnn and nothing else changes; a jump to itself changes nothing at all. -/
def Obligations.JumpGoesToItsTarget : Prop :=
  ∀ (nnn : Addr) (s : State), (∀ c, decode c (wordNNN 0x1#4 nnn) = .instr (.jp nnn)) ∧
    ∃ t, exec (.jp nnn) s = .next t ∧ t.pc.toNat = nnn.toNat ∧ OnlyChanges {} s t ∧
      (nnn.toNat = s.pc.toNat → t = s)

/-- Bnnn (R144): PC becomes nnn + V0, which no 16-bit PC wraps; an instruction only when the parameter says so (decision
D6). -/
def Obligations.OffsetJumpAddsV0 : Prop :=
  ∀ (nnn : Addr) (s : State),
    (∀ c, decode c (wordNNN 0xB#4 nnn) = if c.includeAnnnBnnn then .instr (.jpV0 nnn) else .unmapped) ∧
    ∃ t, exec (.jpV0 nnn) s = .next t ∧ t.pc.toNat = nnn.toNat + (s.readV 0).toNat ∧ OnlyChanges {} s t

/-- 2nnn with room on the stack (R143): the address of the 2nnn is pushed (decision D20), no other entry changes, SP
rises by 1 and PC becomes nnn. -/
def Obligations.CallPushesItsAddress : Prop :=
  ∀ (nnn : Addr) (s : State), s.sp.val < 16 → (∀ c, decode c (wordNNN 0x2#4 nnn) = .instr (.call nnn)) ∧
    ∃ t, exec (.call nnn) s = .next t ∧ t.stack[s.sp.val]? = some s.pc ∧
      (∀ j, j ≠ s.sp.val → t.stack[j]? = s.stack[j]?) ∧ t.sp.val = s.sp.val + 1 ∧ t.pc.toNat = nnn.toNat ∧
      OnlyChanges { sp := true, entries := [s.sp.val] } s t

/-- 00EE with a live entry (R141): PC becomes the top entry plus 2 (decision D20), SP falls by 1, and no entry is
cleared. -/
def Obligations.ReturnGoesPastTheTopEntry : Prop :=
  ∀ s : State, 0 < s.sp.val → (∀ c, decode c 0x00EE#16 = .instr .ret) ∧
    ∃ t e, s.stack[s.sp.val - 1]? = some e ∧ exec .ret s = .next t ∧ t.pc.toNat = (e.toNat + 2) % 65536 ∧
      t.sp.val = s.sp.val - 1 ∧ t.stack = s.stack ∧ OnlyChanges { sp := true } s t

/-- 2nnn on a full stack and 00EE on an empty one fail (R283, R284; the policy is decision D16). -/
def Obligations.StackLimitsFailTheStep : Prop :=
  ∀ (nnn : Addr) (s : State),
    (s.sp.val = 16 → exec (.call nnn) s = .fault (.stackOverflow s.pc)) ∧
    (s.sp.val = 0 → exec .ret s = .fault (.stackUnderflow s.pc))

/-- "`RET` after `CALL addr` restores PC to the instruction following the original CALL" (R141): in any state that has the
stack the call left, whatever else the subroutine changed. -/
def Obligations.ReturnUndoesCall : Prop :=
  ∀ (nnn : Addr) (s t u : State), exec (.call nnn) s = .next t → u.sp = t.sp → u.stack = t.stack →
    ∃ r, exec .ret u = .next r ∧ r.pc.toNat = (s.pc.toNat + 2) % 65536 ∧ r.sp = s.sp

/-- 3xkk and 4xkk (R145, R146): PC + 4 when the register equals, for 4xkk differs from, the immediate, else PC + 2. So
"exactly one of 3xkk and 4xkk with the same x and kk skips", which R146 marks as derived. -/
def Obligations.ByteSkipsCompareWithImmediate : Prop :=
  ∀ (x : Reg) (kk : Byte) (s : State),
    (∀ c, decode c (wordXKK 0x3#4 x kk) = .instr (.seByte x kk) ∧ decode c (wordXKK 0x4#4 x kk) = .instr (.sneByte x kk)) ∧
    (∃ t, exec (.seByte x kk) s = .next t ∧ OnlyChanges {} s t ∧
      t.pc.toNat = (s.pc.toNat + if s.readV x = kk then 4 else 2) % 65536) ∧
    ∃ t, exec (.sneByte x kk) s = .next t ∧ OnlyChanges {} s t ∧
      t.pc.toNat = (s.pc.toNat + if s.readV x = kk then 2 else 4) % 65536

/-- 5xy0 and 9xy0 (R147, R148): PC + 4 when the registers are equal, for 9xy0 differ, else PC + 2. That a nonzero low nibble
is unmapped (R96) is the spec's decision D8 (log entry 5). -/
def Obligations.RegisterSkipsCompareRegisters : Prop :=
  ∀ (x y : Reg) (s : State),
    (∀ c, decode c (wordXYN 0x5#4 x y 0#4) = .instr (.seReg x y) ∧ decode c (wordXYN 0x9#4 x y 0#4) = .instr (.sneReg x y)) ∧
    (∀ c n, n ≠ 0#4 → decode c (wordXYN 0x5#4 x y n) = .unmapped ∧ decode c (wordXYN 0x9#4 x y n) = .unmapped) ∧
    (∃ t, exec (.seReg x y) s = .next t ∧ OnlyChanges {} s t ∧
      t.pc.toNat = (s.pc.toNat + if s.readV x = s.readV y then 4 else 2) % 65536) ∧
    ∃ t, exec (.sneReg x y) s = .next t ∧ OnlyChanges {} s t ∧
      t.pc.toNat = (s.pc.toNat + if s.readV x = s.readV y then 2 else 4) % 65536

/-! ## Arithmetic, logic and random -/

/-- 6xkk and 8xy0 (R172, R174): one register takes the immediate or the other register's value; VF only when it is named. -/
def Obligations.LoadsWriteOneRegister : Prop :=
  ∀ (x y : Reg) (kk : Byte) (s : State),
    (∀ c, decode c (wordXKK 0x6#4 x kk) = .instr (.ldByte x kk) ∧ decode c (wordXYN 0x8#4 x y 0#4) = .instr (.ldReg x y)) ∧
    (∃ t, exec (.ldByte x kk) s = .next t ∧ t.readV x = kk ∧ t.pc.toNat = (s.pc.toNat + 2) % 65536 ∧
      OnlyChanges { v := [x] } s t) ∧
    ∃ t, exec (.ldReg x y) s = .next t ∧ t.readV x = s.readV y ∧ t.pc.toNat = (s.pc.toNat + 2) % 65536 ∧
      OnlyChanges { v := [x] } s t

/-- 7xkk (R173): the sum mod 256, with no flag effect. -/
def Obligations.AddImmediateWrapsWithoutFlag : Prop :=
  ∀ (x : Reg) (kk : Byte) (s : State), (∀ c, decode c (wordXKK 0x7#4 x kk) = .instr (.addByte x kk)) ∧
    ∃ t, exec (.addByte x kk) s = .next t ∧ (t.readV x).toNat = ((s.readV x).toNat + kk.toNat) % 256 ∧
      t.pc.toNat = (s.pc.toNat + 2) % 65536 ∧ OnlyChanges { v := [x] } s t

/-- 8xy1, 8xy2, 8xy3 (R175, R176, R177), bit by bit; that VF is not reset is decision D10. -/
def Obligations.LogicWorksBitByBit : Prop :=
  ∀ (x y : Reg) (s : State),
    (∃ t, exec (.orReg x y) s = .next t ∧ t.pc = s.pc + 2 ∧ OnlyChanges { v := [x] } s t ∧
      ∀ j, (t.readV x).getLsbD j = ((s.readV x).getLsbD j || (s.readV y).getLsbD j)) ∧
    (∃ t, exec (.andReg x y) s = .next t ∧ t.pc = s.pc + 2 ∧ OnlyChanges { v := [x] } s t ∧
      ∀ j, (t.readV x).getLsbD j = ((s.readV x).getLsbD j && (s.readV y).getLsbD j)) ∧
    ∃ t, exec (.xorReg x y) s = .next t ∧ t.pc = s.pc + 2 ∧ OnlyChanges { v := [x] } s t ∧
      ∀ j, (t.readV x).getLsbD j = ((s.readV x).getLsbD j ^^ (s.readV y).getLsbD j)

/-- 8xy4 (R178): the sum mod 256 and the carry, of the values before the instruction. That VF ends as the flag when x = F is
decision D9. -/
def Obligations.AddSetsCarry : Prop :=
  ∀ (x y : Reg) (s : State), ∃ t, exec (.addReg x y) s = .next t ∧
    (x ≠ VF → (t.readV x).toNat = ((s.readV x).toNat + (s.readV y).toNat) % 256) ∧
    (t.readV VF).toNat = (if (s.readV x).toNat + (s.readV y).toNat > 255 then 1 else 0) ∧
    t.pc = s.pc + 2 ∧ OnlyChanges { v := [x, VF] } s t

/-- 8xy5 and 8xy7 (R179, R181): the difference mod 256, and VF = 1 iff the minuend is strictly greater. That VF ends as the
flag when x = F is decision D9. -/
def Obligations.SubtractSetsStrictlyGreater : Prop :=
  ∀ (x y : Reg) (s : State),
    (∃ t, exec (.sub x y) s = .next t ∧
      (x ≠ VF → ((t.readV x).toNat : Int) = ((s.readV x).toNat - (s.readV y).toNat : Int) % 256) ∧
      (t.readV VF).toNat = (if (s.readV x).toNat > (s.readV y).toNat then 1 else 0) ∧
      t.pc = s.pc + 2 ∧ OnlyChanges { v := [x, VF] } s t) ∧
    ∃ t, exec (.subn x y) s = .next t ∧
      (x ≠ VF → ((t.readV x).toNat : Int) = ((s.readV y).toNat - (s.readV x).toNat : Int) % 256) ∧
      (t.readV VF).toNat = (if (s.readV y).toNat > (s.readV x).toNat then 1 else 0) ∧
      t.pc = s.pc + 2 ∧ OnlyChanges { v := [x, VF] } s t

/-- 8xy6 (R180): Vx div 2 whatever y names, and VF the low bit before. That VF ends as the flag when x = F is decision D9. -/
def Obligations.ShiftRightHalvesVx : Prop :=
  ∀ (x y : Reg) (s : State), ∃ t, exec (.shr x y) s = .next t ∧
    (x ≠ VF → (t.readV x).toNat = (s.readV x).toNat / 2) ∧
    (t.readV VF).toNat = (s.readV x).toNat % 2 ∧ t.pc = s.pc + 2 ∧ OnlyChanges { v := [x, VF] } s t

/-- 8xyE (R182): the source, Vx or under the other value of `SHL_SOURCE` Vy (decision D11), times 2 mod 256; VF the high bit
of the old Vx either way. That VF ends as the flag when x = F is decision D9. -/
def Obligations.ShiftLeftDoublesItsSource : Prop :=
  ∀ (x y : Reg) (s : State), ∃ t, exec (.shl x y) s = .next t ∧
    (x ≠ VF → s.cfg.shlSource = .vx → (t.readV x).toNat = (s.readV x).toNat * 2 % 256) ∧
    (x ≠ VF → s.cfg.shlSource = .vy → (t.readV x).toNat = (s.readV y).toNat * 2 % 256) ∧
    (t.readV VF).toNat = (s.readV x).toNat / 128 ∧ t.pc = s.pc + 2 ∧ OnlyChanges { v := [x, VF] } s t

/-- Cxkk (R183): the drawn byte masked, a bit that is 0 in kk is 0 in the result, and one draw is consumed even when kk is 0.
The drawn byte is the model's free value (log entry 2): the statement holds for every value of it. -/
def Obligations.RandomIsMaskedAndConsumesOneDraw : Prop :=
  ∀ (x : Reg) (kk : Byte) (s : State), ∃ t, exec (.rnd x kk) s = .next t ∧
    t.readV x = Config.drawByte s.rng.seed s.rng.draws &&& kk ∧
    (∀ j, kk.getLsbD j = false → (t.readV x).getLsbD j = false) ∧
    t.rng.seed = s.rng.seed ∧ t.rng.draws = s.rng.draws + 1 ∧
    t.pc = s.pc + 2 ∧ OnlyChanges { v := [x], rng := true } s t

/-! ## Index register and memory -/

/-- Annn (R201): I becomes nnn; an instruction only when the parameter says so (decision D6). -/
def Obligations.LoadIndexSetsI : Prop :=
  ∀ (nnn : Addr) (s : State),
    (∀ c, decode c (wordNNN 0xA#4 nnn) = if c.includeAnnnBnnn then .instr (.ldI nnn) else .unmapped) ∧
    ∃ t, exec (.ldI nnn) s = .next t ∧ t.i.toNat = nnn.toNat ∧ t.pc = s.pc + 2 ∧ OnlyChanges { i := true } s t

/-- Fx1E (R202): I is the sum mod 65536, and VF = 1 iff the sum exceeds 0xFFF. That I keeps 16 bits is decision D4, that VF is
written last when x = F decision D9. -/
def Obligations.AddIndexFlagsTwelveBitOverflow : Prop :=
  ∀ (x : Reg) (s : State), ∃ t, exec (.addI x) s = .next t ∧
    t.i.toNat = (s.i.toNat + (s.readV x).toNat) % 65536 ∧
    (t.readV VF).toNat = (if s.i.toNat + (s.readV x).toNat > 0xFFF then 1 else 0) ∧
    t.pc = s.pc + 2 ∧ OnlyChanges { v := [VF], i := true } s t

/-- Fx29 (R203): I becomes five times the whole of Vx. -/
def Obligations.GlyphIndexIsFiveTimesVx : Prop :=
  ∀ (x : Reg) (s : State), (∀ c, decode c (wordXKK 0xF#4 x 0x29#8) = .instr (.ldF x)) ∧
    ∃ t, exec (.ldF x) s = .next t ∧ t.i.toNat = (s.readV x).toNat * 5 ∧
      t.pc.toNat = (s.pc.toNat + 2) % 65536 ∧ OnlyChanges { i := true } s t

/-- Fx33 where its three stores are allowed (R204): the decimal digits, the hundreds at I, and no other byte. -/
def Obligations.BcdStoresThreeDigits : Prop :=
  ∀ (x : Reg) (s : State), s.i.toNat + 2 ≤ 0xFFF → (s.cfg.fontProtect = true → 0x50 ≤ s.i.toNat) →
    ∃ t, exec (.ldB x) s = .next t ∧
      (t.byteAt s.i.toNat).toNat = (s.readV x).toNat / 100 ∧
      (t.byteAt (s.i.toNat + 1)).toNat = (s.readV x).toNat / 10 % 10 ∧
      (t.byteAt (s.i.toNat + 2)).toNat = (s.readV x).toNat % 10 ∧
      t.pc = s.pc + 2 ∧ OnlyChanges { mem := addrs s.base 3 } s t

/-- Fx55 where its stores are allowed (R205): V0 to Vx at I to I+x, no other byte, and I unchanged (decision D12). -/
def Obligations.StoreRegistersWritesI : Prop :=
  ∀ (x : Reg) (s : State), s.i.toNat + x.val ≤ 0xFFF → (s.cfg.fontProtect = true → 0x50 ≤ s.i.toNat) →
    ∃ t, exec (.storeRegs x) s = .next t ∧ (∀ r, r ≤ x → t.byteAt (s.i.toNat + r.val) = s.readV r) ∧
      t.pc = s.pc + 2 ∧ OnlyChanges { mem := addrs s.base (regCount x) } s t

/-- Fx65 where its reads are inside memory (R206): V0 to Vx from I to I+x, no other register, and I unchanged (decision
D12). -/
def Obligations.LoadRegistersReadsI : Prop :=
  ∀ (x : Reg) (s : State), s.i.toNat + x.val ≤ 0xFFF →
    ∃ t, exec (.loadRegs x) s = .next t ∧ (∀ r, r ≤ x → t.readV r = s.byteAt (s.i.toNat + r.val)) ∧
      t.pc = s.pc + 2 ∧ OnlyChanges { v := (List.finRange 16).filter (fun r => r ≤ x) } s t

/-- Dxyn, Fx33, Fx55 and Fx65 fail when an address is above 0xFFF, recording the lowest such address (R64, R285; the condition
is decision D3). -/
def Obligations.AccessAboveTheTopFails : Prop :=
  ∀ (x y : Reg) (n : Nibble) (s : State),
    (n ≠ 0 → 0xFFF < s.i.toNat + n.toNat - 1 →
      exec (.drw x y n) s = .fault (.addressOutOfRange s.pc (max s.i.toNat 0x1000))) ∧
    (0xFFF < s.i.toNat + 2 → exec (.ldB x) s = .fault (.addressOutOfRange s.pc (max s.i.toNat 0x1000))) ∧
    (0xFFF < s.i.toNat + x.val →
      exec (.storeRegs x) s = .fault (.addressOutOfRange s.pc (max s.i.toNat 0x1000)) ∧
      exec (.loadRegs x) s = .fault (.addressOutOfRange s.pc (max s.i.toNat 0x1000)))

/-- Fx33 and Fx55 fail in the protected font, recording the lowest address (R286; the condition is decision D15). -/
def Obligations.FontStoreFails : Prop :=
  ∀ (x : Reg) (s : State), s.cfg.fontProtect = true → s.i.toNat < 0x50 →
    exec (.ldB x) s = .fault (.fontWriteViolation s.pc s.i.toNat) ∧
    exec (.storeRegs x) s = .fault (.fontWriteViolation s.pc s.i.toNat)

/-! ## Display -/

/-- 00E0 (R232): every pixel 0, drawFlag set, VF unchanged. -/
def Obligations.ClearScreenClearsEveryPixel : Prop :=
  ∀ s : State, (∀ c, decode c 0x00E0#16 = .instr .cls) ∧
    ∃ t, exec .cls s = .next t ∧ (∀ p, p < 2048 → t.fb.pixel p = false) ∧ t.drawFlag = true ∧
      t.pc.toNat = (s.pc.toNat + 2) % 65536 ∧ OnlyChanges { pixels := fun _ => True, drawFlag := true } s t

/-- Dxyn with its rows inside memory (R233): exactly the pixels under a set bit of the sprite toggle, VF tells whether one of
them was set, drawFlag is set. The indices are not reduced per axis (R230, decision D23); VF is written last (decision
D9). -/
def Obligations.DrawTogglesThePixelsOfTheSprite : Prop :=
  ∀ (x y : Reg) (n : Nibble) (s : State), (n ≠ 0 → s.i.toNat + n.toNat - 1 ≤ 0xFFF) →
    ∃ t, exec (.drw x y n) s = .next t ∧
      (∀ p, p < 2048 → (spriteCovers s x y n p → t.fb.pixel p = !s.fb.pixel p) ∧
        (¬spriteCovers s x y n p → t.fb.pixel p = s.fb.pixel p)) ∧
      ((∃ p, spriteCovers s x y n p ∧ s.fb.pixel p = true) → t.readV VF = 1) ∧
      ((∀ p, spriteCovers s x y n p → s.fb.pixel p = false) → t.readV VF = 0) ∧
      t.drawFlag = true ∧ t.pc = s.pc + 2 ∧
      OnlyChanges { v := [VF], pixels := spriteCovers s x y n, drawFlag := true } s t

/-- "Drawing the same sprite twice at the same position, with the same I, n and memory, restores the framebuffer" (R234(b),
which marks it as derived), in any state `u` that has the framebuffer the first draw left. R234(b)'s second sentence holds
only where the pixels under the sprite were 0 before the first draw; by R233, the second draw reports VF = 1 exactly when one
of them was 0 (log entry 8). -/
def Obligations.DrawingTwiceRestoresTheScreen : Prop :=
  ∀ (x y : Reg) (n : Nibble) (s t u : State), exec (.drw x y n) s = .next t →
    u.fb = t.fb → u.i = s.i → (∀ a, u.byteAt a = s.byteAt a) → u.readV x = s.readV x → u.readV y = s.readV y →
    ∃ r, exec (.drw x y n) u = .next r ∧ r.fb = s.fb ∧
      (r.readV VF = 1 ↔ ∃ p, spriteCovers s x y n p ∧ s.fb.pixel p = false)

/-! ## Keypad and timers -/

/-- Ex9E and ExA1 for a key that exists (R251, R252): one skips when it is pressed, the other when it is not. -/
def Obligations.KeySkipsFollowTheKey : Prop :=
  ∀ (x : Reg) (s : State) (down : Bool), s.key[(s.readV x).toNat]? = some down →
    (∃ t, exec (.skp x) s = .next t ∧ OnlyChanges {} s t ∧ t.pc = s.pc + if down then 4 else 2) ∧
    ∃ t, exec (.sknp x) s = .next t ∧ OnlyChanges {} s t ∧ t.pc = s.pc + if down then 2 else 4

/-- Ex9E and ExA1 with V[x] above 15 fail, recording V[x] (R287; decision D14). -/
def Obligations.KeyAboveFifteenFails : Prop :=
  ∀ (x : Reg) (s : State), 15 < (s.readV x).toNat →
    exec (.skp x) s = .fault (.invalidKeyCode s.pc (s.readV x)) ∧
    exec (.sknp x) s = .fault (.invalidKeyCode s.pc (s.readV x))

/-- Fx07, Fx15 and Fx18 (R253, R254, R255): the moves between a register and the timers, with no flag effect. -/
def Obligations.TimerMovesCopyTheByte : Prop :=
  ∀ (x : Reg) (s : State),
    (∀ c, decode c (wordXKK 0xF#4 x 0x07#8) = .instr (.ldVxDt x) ∧ decode c (wordXKK 0xF#4 x 0x15#8) = .instr (.ldDtVx x) ∧
      decode c (wordXKK 0xF#4 x 0x18#8) = .instr (.ldStVx x)) ∧
    (∃ t, exec (.ldVxDt x) s = .next t ∧ t.readV x = s.dt ∧ t.pc.toNat = (s.pc.toNat + 2) % 65536 ∧
      OnlyChanges { v := [x] } s t) ∧
    (∃ t, exec (.ldDtVx x) s = .next t ∧ t.dt = s.readV x ∧ t.pc.toNat = (s.pc.toNat + 2) % 65536 ∧
      OnlyChanges { dt := true } s t) ∧
    ∃ t, exec (.ldStVx x) s = .next t ∧ t.st = s.readV x ∧ t.pc.toNat = (s.pc.toNat + 2) % 65536 ∧
      OnlyChanges { st := true } s t

/-- Fx0A (R256): a no-op with no key pressed, else the least pressed key is stored and stays pressed (the least, and a key
already held, are decision D13). -/
def Obligations.WaitTakesTheLeastPressedKey : Prop :=
  ∀ (x : Reg) (s : State),
    ((∀ k, s.pressed k = false) → exec (.ldVxK x) s = .next s) ∧
    ∀ k, s.pressed k = true → (∀ j, j < k → s.pressed j = false) →
      ∃ t, exec (.ldVxK x) s = .next t ∧ (t.readV x).toNat = k.val ∧ t.pc = s.pc + 2 ∧ OnlyChanges { v := [x] } s t

/-! ## The host's operations -/

/-- `tick_timers()` "decrements delay and sound timers by 1 each, floored at 0; has no effect on any other state" (R290). -/
def Obligations.TickDecrementsBothTimers : Prop :=
  ∀ s : State, ∃ t, perform .tickTimers s = (t, .ok) ∧
    t.dt.toNat = (if s.dt.toNat > 0 then s.dt.toNat - 1 else 0) ∧
    t.st.toNat = (if s.st.toNat > 0 then s.st.toNat - 1 else 0) ∧ { t with dt := s.dt, st := s.st } = s

/-- `load` of at most 3584 bytes copies them to 0x200 and changes nothing else (R334, decision D24); of more, it "is rejected
entirely (no partial load)" (R288). -/
def Obligations.LoadCopiesAllOrNothing : Prop :=
  ∀ (bytes : List Byte) (s : State),
    (bytes.length ≤ 3584 → ∃ t, perform (.load bytes) s = (t, .ok) ∧
      (∀ j b, bytes[j]? = some b → t.byteAt (0x200 + j) = b) ∧
      (∀ a, a < 0x200 ∨ 0x200 + bytes.length ≤ a → t.byteAt a = s.byteAt a) ∧ { t with mem := s.mem } = s) ∧
    (3584 < bytes.length → perform (.load bytes) s = (s, .romTooLarge bytes.length))

/-- `press_key` and `release_key` "set/clear exactly one boolean" for a code in [0,15], and change nothing otherwise (R297;
the refusal is decision D32). -/
def Obligations.KeyNotificationsSetOneKey : Prop :=
  ∀ (code : Int) (s : State),
    (0 ≤ code → code ≤ 15 →
      (∃ t, perform (.pressKey code) s = (t, .ok) ∧ { t with key := s.key } = s ∧
        ∀ k : Fin 16, t.pressed k = if (k.val : Int) = code then true else s.pressed k) ∧
      ∃ t, perform (.releaseKey code) s = (t, .ok) ∧ { t with key := s.key } = s ∧
        ∀ k : Fin 16, t.pressed k = if (k.val : Int) = code then false else s.pressed k) ∧
    (code < 0 ∨ 15 < code → perform (.pressKey code) s = (s, .invalidKeyCode code) ∧
      perform (.releaseKey code) s = (s, .invalidKeyCode code))

/-- The queries answer from the state and change nothing, and `clear_draw_flag` clears the flag alone (R293, R298); a pixel
outside [0,2047] is refused (R289, decision D26). -/
def Obligations.QueriesAnswerFromTheState : Prop :=
  ∀ (index : Int) (s : State),
    (0 ≤ index → index ≤ 2047 → perform (.pixel index) s = (s, .bit (s.fb.pixel index.toNat))) ∧
    (index < 0 ∨ 2047 < index → perform (.pixel index) s = (s, .invalidPixelIndex index)) ∧
    perform .drawFlag s = (s, .flag s.drawFlag) ∧ perform .soundTimer s = (s, .byte s.st) ∧
    perform .clearDrawFlag s = ({ s with drawFlag := false }, .ok)

/-- The table of R37, for any parameters and seed: the font at 5d of glyph d and zero above it, PC = 0x200, all else zero or
released. The values of the stack and of drawFlag are decision D27; the state of the random source is the model's (log entry
2) and is not stated. -/
def Obligations.ConstructionLeavesTheResetValues : Prop :=
  ∀ (c : Config) (seed : Seed) (s : State), s = State.construct c seed →
    (∀ d k, (hd : d < 16) → (hk : k < 5) → s.byteAt (5 * d + k) = c.font[d][k]) ∧
    (∀ a, 0x50 ≤ a → a ≤ 0xFFF → s.byteAt a = 0) ∧ (∀ r, s.readV r = 0) ∧
    s.i = 0 ∧ s.pc = 0x200 ∧ s.sp = 0 ∧ (∀ j, (h : j < 16) → s.stack[j] = 0) ∧ s.dt = 0 ∧ s.st = 0 ∧
    (∀ p, p < 2048 → s.fb.pixel p = false) ∧ (∀ k, s.pressed k = false) ∧ s.drawFlag = false ∧ s.cfg = c

/-- Every operation of R300 keeps the invariant, whatever bytes, codes and indices the host gives and whatever state it meets
(R40 for the font and the live entries, R23 and R140 for PC, all marked as derived). That memory stays canonical is the model's
choice (log entry 6) and no rule of the spec. -/
def Obligations.HostOperationsKeepTheInvariant : Prop :=
  ∀ (op : HostOp) (s : State), s.Inv → (perform op s).1.Inv
end

