-- ==== Sys2Proof/Laws/Decode.lean ====
section
/-! SUPPORT. The fields of the words that the formats of R92 build, words rebuilt from their fields, and bytes against words. -/

namespace Sys2Proof

variable (op n : Nibble) (x y : Reg) (kk hi lo : Byte) (nnn : Addr) (w : Word)

/-! ## Fields as numbers (R91) -/

theorem toNat_fieldOp : (fieldOp w).toNat = w.toNat / 0x1000 := by
  simp [fieldOp, Nat.shiftRight_eq_div_pow]; omega

theorem val_fieldX : (fieldX w).val = w.toNat / 0x100 % 16 := by
  simp [fieldX, Nat.shiftRight_eq_div_pow]

theorem val_fieldY : (fieldY w).val = w.toNat / 0x10 % 16 := by
  simp [fieldY, Nat.shiftRight_eq_div_pow]

theorem toNat_fieldN : (fieldN w).toNat = w.toNat % 16 := by simp [fieldN]

theorem toNat_fieldKK : (fieldKK w).toNat = w.toNat % 256 := by simp [fieldKK]

theorem toNat_fieldNNN : (fieldNNN w).toNat = w.toNat % 4096 := by simp [fieldNNN]

theorem toNat_wordNNN : (wordNNN op nnn).toNat = op.toNat * 0x1000 + nnn.toNat := by
  simp [wordNNN]; omega

theorem toNat_wordXKK : (wordXKK op x kk).toNat = op.toNat * 0x1000 + x.val * 0x100 + kk.toNat := by
  simp [wordXKK]; omega

theorem toNat_wordXYN : (wordXYN op x y n).toNat = op.toNat * 0x1000 + x.val * 0x100 + y.val * 0x10 + n.toNat := by
  simp [wordXYN]; omega

/-! ## The fields of a built word -/

@[simp] theorem fieldOp_wordNNN : fieldOp (wordNNN op nnn) = op := by
  apply BitVec.eq_of_toNat_eq; rw [toNat_fieldOp, toNat_wordNNN]; omega

@[simp] theorem fieldNNN_wordNNN : fieldNNN (wordNNN op nnn) = nnn := by
  apply BitVec.eq_of_toNat_eq; rw [toNat_fieldNNN, toNat_wordNNN]; omega

@[simp] theorem fieldOp_wordXKK : fieldOp (wordXKK op x kk) = op := by
  apply BitVec.eq_of_toNat_eq; rw [toNat_fieldOp, toNat_wordXKK]; omega

@[simp] theorem fieldX_wordXKK : fieldX (wordXKK op x kk) = x := by
  apply Fin.ext; rw [val_fieldX, toNat_wordXKK]; omega

@[simp] theorem fieldKK_wordXKK : fieldKK (wordXKK op x kk) = kk := by
  apply BitVec.eq_of_toNat_eq; rw [toNat_fieldKK, toNat_wordXKK]; omega

@[simp] theorem fieldOp_wordXYN : fieldOp (wordXYN op x y n) = op := by
  apply BitVec.eq_of_toNat_eq; rw [toNat_fieldOp, toNat_wordXYN]; omega

@[simp] theorem fieldX_wordXYN : fieldX (wordXYN op x y n) = x := by
  apply Fin.ext; rw [val_fieldX, toNat_wordXYN]; omega

@[simp] theorem fieldY_wordXYN : fieldY (wordXYN op x y n) = y := by
  apply Fin.ext; rw [val_fieldY, toNat_wordXYN]; omega

@[simp] theorem fieldN_wordXYN : fieldN (wordXYN op x y n) = n := by
  apply BitVec.eq_of_toNat_eq; rw [toNat_fieldN, toNat_wordXYN]; omega

/-! ## A word from its fields -/

@[simp] theorem wordNNN_fields : wordNNN (fieldOp w) (fieldNNN w) = w := by
  apply BitVec.eq_of_toNat_eq; rw [toNat_wordNNN, toNat_fieldOp, toNat_fieldNNN]; omega

@[simp] theorem wordXKK_fields : wordXKK (fieldOp w) (fieldX w) (fieldKK w) = w := by
  apply BitVec.eq_of_toNat_eq; rw [toNat_wordXKK, toNat_fieldOp, val_fieldX, toNat_fieldKK]; omega

@[simp] theorem wordXYN_fields : wordXYN (fieldOp w) (fieldX w) (fieldY w) (fieldN w) = w := by
  apply BitVec.eq_of_toNat_eq; rw [toNat_wordXYN, toNat_fieldOp, val_fieldX, val_fieldY, toNat_fieldN]; omega

/-! ## Bytes (R66) -/

theorem toNat_wordOfBytes : (wordOfBytes hi lo).toNat = hi.toNat * 256 + lo.toNat := by
  simp [wordOfBytes]; omega

@[simp] theorem highByte_wordOfBytes : highByte (wordOfBytes hi lo) = hi := by
  apply BitVec.eq_of_toNat_eq
  simp only [highByte, BitVec.extractLsb'_toNat, toNat_wordOfBytes, Nat.shiftRight_eq_div_pow]; omega

@[simp] theorem lowByte_wordOfBytes : lowByte (wordOfBytes hi lo) = lo := by
  apply BitVec.eq_of_toNat_eq
  simp only [lowByte, BitVec.extractLsb'_toNat, toNat_wordOfBytes, Nat.shiftRight_eq_div_pow]; omega

@[simp] theorem wordOfBytes_bytes : wordOfBytes (highByte w) (lowByte w) = w := by
  apply BitVec.eq_of_toNat_eq
  simp only [toNat_wordOfBytes, highByte, lowByte, BitVec.extractLsb'_toNat, Nat.shiftRight_eq_div_pow]; omega

end Sys2Proof
end

