-- ==== Sys2Proof/Laws/State.lean ====
section
/-! SUPPORT. What each update of the state leaves in each field, and what the reading operations give after an update of a
field they do not read: all true by definition. No later proof unfolds a record update. -/

namespace Sys2Proof.Machine

variable (s : State)

/-! ### setByte -/

@[simp] theorem State.setByte_cfg (a : Nat) (b : Byte) : (s.setByte a b).cfg = s.cfg := rfl
@[simp] theorem State.setByte_mem (a : Nat) (b : Byte) : (s.setByte a b).mem = Memory.write s.cfg.font s.mem a b := rfl
@[simp] theorem State.setByte_v (a : Nat) (b : Byte) : (s.setByte a b).v = s.v := rfl
@[simp] theorem State.setByte_i (a : Nat) (b : Byte) : (s.setByte a b).i = s.i := rfl
@[simp] theorem State.setByte_pc (a : Nat) (b : Byte) : (s.setByte a b).pc = s.pc := rfl
@[simp] theorem State.setByte_sp (a : Nat) (b : Byte) : (s.setByte a b).sp = s.sp := rfl
@[simp] theorem State.setByte_stack (a : Nat) (b : Byte) : (s.setByte a b).stack = s.stack := rfl
@[simp] theorem State.setByte_dt (a : Nat) (b : Byte) : (s.setByte a b).dt = s.dt := rfl
@[simp] theorem State.setByte_st (a : Nat) (b : Byte) : (s.setByte a b).st = s.st := rfl
@[simp] theorem State.setByte_fb (a : Nat) (b : Byte) : (s.setByte a b).fb = s.fb := rfl
@[simp] theorem State.setByte_key (a : Nat) (b : Byte) : (s.setByte a b).key = s.key := rfl
@[simp] theorem State.setByte_drawFlag (a : Nat) (b : Byte) : (s.setByte a b).drawFlag = s.drawFlag := rfl
@[simp] theorem State.setByte_rng (a : Nat) (b : Byte) : (s.setByte a b).rng = s.rng := rfl
@[simp] theorem State.setByte_readV (a : Nat) (b : Byte) (q : Reg) : (s.setByte a b).readV q = s.readV q := rfl
@[simp] theorem State.setByte_pressed (a : Nat) (b : Byte) (q : Fin 16) : (s.setByte a b).pressed q = s.pressed q := rfl
@[simp] theorem State.setByte_drawnByte (a : Nat) (b : Byte) : (s.setByte a b).drawnByte = s.drawnByte := rfl
@[simp] theorem State.setByte_base (a : Nat) (b : Byte) : (s.setByte a b).base = s.base := rfl
@[simp] theorem State.setByte_leastPressed (a : Nat) (b : Byte) : (s.setByte a b).leastPressed = s.leastPressed := rfl

/-! ### writeV -/

@[simp] theorem State.writeV_cfg (r : Reg) (b : Byte) : (s.writeV r b).cfg = s.cfg := rfl
@[simp] theorem State.writeV_mem (r : Reg) (b : Byte) : (s.writeV r b).mem = s.mem := rfl
@[simp] theorem State.writeV_v (r : Reg) (b : Byte) : (s.writeV r b).v = s.v.set r.val b := rfl
@[simp] theorem State.writeV_i (r : Reg) (b : Byte) : (s.writeV r b).i = s.i := rfl
@[simp] theorem State.writeV_pc (r : Reg) (b : Byte) : (s.writeV r b).pc = s.pc := rfl
@[simp] theorem State.writeV_sp (r : Reg) (b : Byte) : (s.writeV r b).sp = s.sp := rfl
@[simp] theorem State.writeV_stack (r : Reg) (b : Byte) : (s.writeV r b).stack = s.stack := rfl
@[simp] theorem State.writeV_dt (r : Reg) (b : Byte) : (s.writeV r b).dt = s.dt := rfl
@[simp] theorem State.writeV_st (r : Reg) (b : Byte) : (s.writeV r b).st = s.st := rfl
@[simp] theorem State.writeV_fb (r : Reg) (b : Byte) : (s.writeV r b).fb = s.fb := rfl
@[simp] theorem State.writeV_key (r : Reg) (b : Byte) : (s.writeV r b).key = s.key := rfl
@[simp] theorem State.writeV_drawFlag (r : Reg) (b : Byte) : (s.writeV r b).drawFlag = s.drawFlag := rfl
@[simp] theorem State.writeV_rng (r : Reg) (b : Byte) : (s.writeV r b).rng = s.rng := rfl
@[simp] theorem State.writeV_byteAt (r : Reg) (b : Byte) (x : Nat) : (s.writeV r b).byteAt x = s.byteAt x := rfl
@[simp] theorem State.writeV_pressed (r : Reg) (b : Byte) (q : Fin 16) : (s.writeV r b).pressed q = s.pressed q := rfl
@[simp] theorem State.writeV_drawnByte (r : Reg) (b : Byte) : (s.writeV r b).drawnByte = s.drawnByte := rfl
@[simp] theorem State.writeV_base (r : Reg) (b : Byte) : (s.writeV r b).base = s.base := rfl
@[simp] theorem State.writeV_leastPressed (r : Reg) (b : Byte) : (s.writeV r b).leastPressed = s.leastPressed := rfl

/-! ### setI -/

@[simp] theorem State.setI_cfg (w : Word) : (s.setI w).cfg = s.cfg := rfl
@[simp] theorem State.setI_mem (w : Word) : (s.setI w).mem = s.mem := rfl
@[simp] theorem State.setI_v (w : Word) : (s.setI w).v = s.v := rfl
@[simp] theorem State.setI_i (w : Word) : (s.setI w).i = w := rfl
@[simp] theorem State.setI_pc (w : Word) : (s.setI w).pc = s.pc := rfl
@[simp] theorem State.setI_sp (w : Word) : (s.setI w).sp = s.sp := rfl
@[simp] theorem State.setI_stack (w : Word) : (s.setI w).stack = s.stack := rfl
@[simp] theorem State.setI_dt (w : Word) : (s.setI w).dt = s.dt := rfl
@[simp] theorem State.setI_st (w : Word) : (s.setI w).st = s.st := rfl
@[simp] theorem State.setI_fb (w : Word) : (s.setI w).fb = s.fb := rfl
@[simp] theorem State.setI_key (w : Word) : (s.setI w).key = s.key := rfl
@[simp] theorem State.setI_drawFlag (w : Word) : (s.setI w).drawFlag = s.drawFlag := rfl
@[simp] theorem State.setI_rng (w : Word) : (s.setI w).rng = s.rng := rfl
@[simp] theorem State.setI_readV (w : Word) (q : Reg) : (s.setI w).readV q = s.readV q := rfl
@[simp] theorem State.setI_byteAt (w : Word) (x : Nat) : (s.setI w).byteAt x = s.byteAt x := rfl
@[simp] theorem State.setI_pressed (w : Word) (q : Fin 16) : (s.setI w).pressed q = s.pressed q := rfl
@[simp] theorem State.setI_drawnByte (w : Word) : (s.setI w).drawnByte = s.drawnByte := rfl
@[simp] theorem State.setI_leastPressed (w : Word) : (s.setI w).leastPressed = s.leastPressed := rfl

/-! ### setDT -/

@[simp] theorem State.setDT_cfg (b : Byte) : (s.setDT b).cfg = s.cfg := rfl
@[simp] theorem State.setDT_mem (b : Byte) : (s.setDT b).mem = s.mem := rfl
@[simp] theorem State.setDT_v (b : Byte) : (s.setDT b).v = s.v := rfl
@[simp] theorem State.setDT_i (b : Byte) : (s.setDT b).i = s.i := rfl
@[simp] theorem State.setDT_pc (b : Byte) : (s.setDT b).pc = s.pc := rfl
@[simp] theorem State.setDT_sp (b : Byte) : (s.setDT b).sp = s.sp := rfl
@[simp] theorem State.setDT_stack (b : Byte) : (s.setDT b).stack = s.stack := rfl
@[simp] theorem State.setDT_dt (b : Byte) : (s.setDT b).dt = b := rfl
@[simp] theorem State.setDT_st (b : Byte) : (s.setDT b).st = s.st := rfl
@[simp] theorem State.setDT_fb (b : Byte) : (s.setDT b).fb = s.fb := rfl
@[simp] theorem State.setDT_key (b : Byte) : (s.setDT b).key = s.key := rfl
@[simp] theorem State.setDT_drawFlag (b : Byte) : (s.setDT b).drawFlag = s.drawFlag := rfl
@[simp] theorem State.setDT_rng (b : Byte) : (s.setDT b).rng = s.rng := rfl
@[simp] theorem State.setDT_readV (b : Byte) (q : Reg) : (s.setDT b).readV q = s.readV q := rfl
@[simp] theorem State.setDT_byteAt (b : Byte) (x : Nat) : (s.setDT b).byteAt x = s.byteAt x := rfl
@[simp] theorem State.setDT_pressed (b : Byte) (q : Fin 16) : (s.setDT b).pressed q = s.pressed q := rfl
@[simp] theorem State.setDT_drawnByte (b : Byte) : (s.setDT b).drawnByte = s.drawnByte := rfl
@[simp] theorem State.setDT_base (b : Byte) : (s.setDT b).base = s.base := rfl
@[simp] theorem State.setDT_leastPressed (b : Byte) : (s.setDT b).leastPressed = s.leastPressed := rfl

/-! ### setST -/

@[simp] theorem State.setST_cfg (b : Byte) : (s.setST b).cfg = s.cfg := rfl
@[simp] theorem State.setST_mem (b : Byte) : (s.setST b).mem = s.mem := rfl
@[simp] theorem State.setST_v (b : Byte) : (s.setST b).v = s.v := rfl
@[simp] theorem State.setST_i (b : Byte) : (s.setST b).i = s.i := rfl
@[simp] theorem State.setST_pc (b : Byte) : (s.setST b).pc = s.pc := rfl
@[simp] theorem State.setST_sp (b : Byte) : (s.setST b).sp = s.sp := rfl
@[simp] theorem State.setST_stack (b : Byte) : (s.setST b).stack = s.stack := rfl
@[simp] theorem State.setST_dt (b : Byte) : (s.setST b).dt = s.dt := rfl
@[simp] theorem State.setST_st (b : Byte) : (s.setST b).st = b := rfl
@[simp] theorem State.setST_fb (b : Byte) : (s.setST b).fb = s.fb := rfl
@[simp] theorem State.setST_key (b : Byte) : (s.setST b).key = s.key := rfl
@[simp] theorem State.setST_drawFlag (b : Byte) : (s.setST b).drawFlag = s.drawFlag := rfl
@[simp] theorem State.setST_rng (b : Byte) : (s.setST b).rng = s.rng := rfl
@[simp] theorem State.setST_readV (b : Byte) (q : Reg) : (s.setST b).readV q = s.readV q := rfl
@[simp] theorem State.setST_byteAt (b : Byte) (x : Nat) : (s.setST b).byteAt x = s.byteAt x := rfl
@[simp] theorem State.setST_pressed (b : Byte) (q : Fin 16) : (s.setST b).pressed q = s.pressed q := rfl
@[simp] theorem State.setST_drawnByte (b : Byte) : (s.setST b).drawnByte = s.drawnByte := rfl
@[simp] theorem State.setST_base (b : Byte) : (s.setST b).base = s.base := rfl
@[simp] theorem State.setST_leastPressed (b : Byte) : (s.setST b).leastPressed = s.leastPressed := rfl

/-! ### setPC -/

@[simp] theorem State.setPC_cfg (w : Word) : (s.setPC w).cfg = s.cfg := rfl
@[simp] theorem State.setPC_mem (w : Word) : (s.setPC w).mem = s.mem := rfl
@[simp] theorem State.setPC_v (w : Word) : (s.setPC w).v = s.v := rfl
@[simp] theorem State.setPC_i (w : Word) : (s.setPC w).i = s.i := rfl
@[simp] theorem State.setPC_pc (w : Word) : (s.setPC w).pc = w := rfl
@[simp] theorem State.setPC_sp (w : Word) : (s.setPC w).sp = s.sp := rfl
@[simp] theorem State.setPC_stack (w : Word) : (s.setPC w).stack = s.stack := rfl
@[simp] theorem State.setPC_dt (w : Word) : (s.setPC w).dt = s.dt := rfl
@[simp] theorem State.setPC_st (w : Word) : (s.setPC w).st = s.st := rfl
@[simp] theorem State.setPC_fb (w : Word) : (s.setPC w).fb = s.fb := rfl
@[simp] theorem State.setPC_key (w : Word) : (s.setPC w).key = s.key := rfl
@[simp] theorem State.setPC_drawFlag (w : Word) : (s.setPC w).drawFlag = s.drawFlag := rfl
@[simp] theorem State.setPC_rng (w : Word) : (s.setPC w).rng = s.rng := rfl
@[simp] theorem State.setPC_readV (w : Word) (q : Reg) : (s.setPC w).readV q = s.readV q := rfl
@[simp] theorem State.setPC_byteAt (w : Word) (x : Nat) : (s.setPC w).byteAt x = s.byteAt x := rfl
@[simp] theorem State.setPC_pressed (w : Word) (q : Fin 16) : (s.setPC w).pressed q = s.pressed q := rfl
@[simp] theorem State.setPC_drawnByte (w : Word) : (s.setPC w).drawnByte = s.drawnByte := rfl
@[simp] theorem State.setPC_base (w : Word) : (s.setPC w).base = s.base := rfl
@[simp] theorem State.setPC_leastPressed (w : Word) : (s.setPC w).leastPressed = s.leastPressed := rfl

/-! ### redraw -/

@[simp] theorem State.redraw_cfg (fb : Framebuffer) : (s.redraw fb).cfg = s.cfg := rfl
@[simp] theorem State.redraw_mem (fb : Framebuffer) : (s.redraw fb).mem = s.mem := rfl
@[simp] theorem State.redraw_v (fb : Framebuffer) : (s.redraw fb).v = s.v := rfl
@[simp] theorem State.redraw_i (fb : Framebuffer) : (s.redraw fb).i = s.i := rfl
@[simp] theorem State.redraw_pc (fb : Framebuffer) : (s.redraw fb).pc = s.pc := rfl
@[simp] theorem State.redraw_sp (fb : Framebuffer) : (s.redraw fb).sp = s.sp := rfl
@[simp] theorem State.redraw_stack (fb : Framebuffer) : (s.redraw fb).stack = s.stack := rfl
@[simp] theorem State.redraw_dt (fb : Framebuffer) : (s.redraw fb).dt = s.dt := rfl
@[simp] theorem State.redraw_st (fb : Framebuffer) : (s.redraw fb).st = s.st := rfl
@[simp] theorem State.redraw_fb (fb : Framebuffer) : (s.redraw fb).fb = fb := rfl
@[simp] theorem State.redraw_key (fb : Framebuffer) : (s.redraw fb).key = s.key := rfl
@[simp] theorem State.redraw_drawFlag (fb : Framebuffer) : (s.redraw fb).drawFlag = true := rfl
@[simp] theorem State.redraw_rng (fb : Framebuffer) : (s.redraw fb).rng = s.rng := rfl
@[simp] theorem State.redraw_readV (fb : Framebuffer) (q : Reg) : (s.redraw fb).readV q = s.readV q := rfl
@[simp] theorem State.redraw_byteAt (fb : Framebuffer) (x : Nat) : (s.redraw fb).byteAt x = s.byteAt x := rfl
@[simp] theorem State.redraw_pressed (fb : Framebuffer) (q : Fin 16) : (s.redraw fb).pressed q = s.pressed q := rfl
@[simp] theorem State.redraw_drawnByte (fb : Framebuffer) : (s.redraw fb).drawnByte = s.drawnByte := rfl
@[simp] theorem State.redraw_base (fb : Framebuffer) : (s.redraw fb).base = s.base := rfl
@[simp] theorem State.redraw_leastPressed (fb : Framebuffer) : (s.redraw fb).leastPressed = s.leastPressed := rfl

/-! ### setKey -/

@[simp] theorem State.setKey_cfg (k : Fin 16) (b : Bool) : (s.setKey k b).cfg = s.cfg := rfl
@[simp] theorem State.setKey_mem (k : Fin 16) (b : Bool) : (s.setKey k b).mem = s.mem := rfl
@[simp] theorem State.setKey_v (k : Fin 16) (b : Bool) : (s.setKey k b).v = s.v := rfl
@[simp] theorem State.setKey_i (k : Fin 16) (b : Bool) : (s.setKey k b).i = s.i := rfl
@[simp] theorem State.setKey_pc (k : Fin 16) (b : Bool) : (s.setKey k b).pc = s.pc := rfl
@[simp] theorem State.setKey_sp (k : Fin 16) (b : Bool) : (s.setKey k b).sp = s.sp := rfl
@[simp] theorem State.setKey_stack (k : Fin 16) (b : Bool) : (s.setKey k b).stack = s.stack := rfl
@[simp] theorem State.setKey_dt (k : Fin 16) (b : Bool) : (s.setKey k b).dt = s.dt := rfl
@[simp] theorem State.setKey_st (k : Fin 16) (b : Bool) : (s.setKey k b).st = s.st := rfl
@[simp] theorem State.setKey_fb (k : Fin 16) (b : Bool) : (s.setKey k b).fb = s.fb := rfl
@[simp] theorem State.setKey_key (k : Fin 16) (b : Bool) : (s.setKey k b).key = s.key.set k.val b := rfl
@[simp] theorem State.setKey_drawFlag (k : Fin 16) (b : Bool) : (s.setKey k b).drawFlag = s.drawFlag := rfl
@[simp] theorem State.setKey_rng (k : Fin 16) (b : Bool) : (s.setKey k b).rng = s.rng := rfl
@[simp] theorem State.setKey_readV (k : Fin 16) (b : Bool) (q : Reg) : (s.setKey k b).readV q = s.readV q := rfl
@[simp] theorem State.setKey_byteAt (k : Fin 16) (b : Bool) (x : Nat) : (s.setKey k b).byteAt x = s.byteAt x := rfl
@[simp] theorem State.setKey_drawnByte (k : Fin 16) (b : Bool) : (s.setKey k b).drawnByte = s.drawnByte := rfl
@[simp] theorem State.setKey_base (k : Fin 16) (b : Bool) : (s.setKey k b).base = s.base := rfl

/-! ### advanceRng -/

@[simp] theorem State.advanceRng_cfg : (s.advanceRng).cfg = s.cfg := rfl
@[simp] theorem State.advanceRng_mem : (s.advanceRng).mem = s.mem := rfl
@[simp] theorem State.advanceRng_v : (s.advanceRng).v = s.v := rfl
@[simp] theorem State.advanceRng_i : (s.advanceRng).i = s.i := rfl
@[simp] theorem State.advanceRng_pc : (s.advanceRng).pc = s.pc := rfl
@[simp] theorem State.advanceRng_sp : (s.advanceRng).sp = s.sp := rfl
@[simp] theorem State.advanceRng_stack : (s.advanceRng).stack = s.stack := rfl
@[simp] theorem State.advanceRng_dt : (s.advanceRng).dt = s.dt := rfl
@[simp] theorem State.advanceRng_st : (s.advanceRng).st = s.st := rfl
@[simp] theorem State.advanceRng_fb : (s.advanceRng).fb = s.fb := rfl
@[simp] theorem State.advanceRng_key : (s.advanceRng).key = s.key := rfl
@[simp] theorem State.advanceRng_drawFlag : (s.advanceRng).drawFlag = s.drawFlag := rfl
@[simp] theorem State.advanceRng_rng : (s.advanceRng).rng = ⟨s.rng.seed, s.rng.draws + 1⟩ := rfl
@[simp] theorem State.advanceRng_readV (q : Reg) : (s.advanceRng).readV q = s.readV q := rfl
@[simp] theorem State.advanceRng_byteAt (x : Nat) : (s.advanceRng).byteAt x = s.byteAt x := rfl
@[simp] theorem State.advanceRng_pressed (q : Fin 16) : (s.advanceRng).pressed q = s.pressed q := rfl
@[simp] theorem State.advanceRng_base : (s.advanceRng).base = s.base := rfl
@[simp] theorem State.advanceRng_leastPressed : (s.advanceRng).leastPressed = s.leastPressed := rfl

/-! ### advance -/

@[simp] theorem State.advance_cfg : (s.advance).cfg = s.cfg := rfl
@[simp] theorem State.advance_mem : (s.advance).mem = s.mem := rfl
@[simp] theorem State.advance_v : (s.advance).v = s.v := rfl
@[simp] theorem State.advance_i : (s.advance).i = s.i := rfl
@[simp] theorem State.advance_pc : (s.advance).pc = s.pc + 2 := rfl
@[simp] theorem State.advance_sp : (s.advance).sp = s.sp := rfl
@[simp] theorem State.advance_stack : (s.advance).stack = s.stack := rfl
@[simp] theorem State.advance_dt : (s.advance).dt = s.dt := rfl
@[simp] theorem State.advance_st : (s.advance).st = s.st := rfl
@[simp] theorem State.advance_fb : (s.advance).fb = s.fb := rfl
@[simp] theorem State.advance_key : (s.advance).key = s.key := rfl
@[simp] theorem State.advance_drawFlag : (s.advance).drawFlag = s.drawFlag := rfl
@[simp] theorem State.advance_rng : (s.advance).rng = s.rng := rfl
@[simp] theorem State.advance_readV (q : Reg) : (s.advance).readV q = s.readV q := rfl
@[simp] theorem State.advance_byteAt (x : Nat) : (s.advance).byteAt x = s.byteAt x := rfl
@[simp] theorem State.advance_pressed (q : Fin 16) : (s.advance).pressed q = s.pressed q := rfl
@[simp] theorem State.advance_drawnByte : (s.advance).drawnByte = s.drawnByte := rfl
@[simp] theorem State.advance_base : (s.advance).base = s.base := rfl
@[simp] theorem State.advance_leastPressed : (s.advance).leastPressed = s.leastPressed := rfl

/-! ### Ticks and the draw-flag's acknowledgement -/

@[simp] theorem tickTimers_cfg : (tickTimers s).cfg = s.cfg := rfl
@[simp] theorem tickTimers_mem : (tickTimers s).mem = s.mem := rfl
@[simp] theorem tickTimers_v : (tickTimers s).v = s.v := rfl
@[simp] theorem tickTimers_i : (tickTimers s).i = s.i := rfl
@[simp] theorem tickTimers_pc : (tickTimers s).pc = s.pc := rfl
@[simp] theorem tickTimers_sp : (tickTimers s).sp = s.sp := rfl
@[simp] theorem tickTimers_stack : (tickTimers s).stack = s.stack := rfl
@[simp] theorem tickTimers_dt : (tickTimers s).dt = tickByte s.dt := rfl
@[simp] theorem tickTimers_st : (tickTimers s).st = tickByte s.st := rfl
@[simp] theorem tickTimers_fb : (tickTimers s).fb = s.fb := rfl
@[simp] theorem tickTimers_key : (tickTimers s).key = s.key := rfl
@[simp] theorem tickTimers_drawFlag : (tickTimers s).drawFlag = s.drawFlag := rfl
@[simp] theorem tickTimers_rng : (tickTimers s).rng = s.rng := rfl
@[simp] theorem tickTimers_readV (q : Reg) : (tickTimers s).readV q = s.readV q := rfl
@[simp] theorem tickTimers_byteAt (x : Nat) : (tickTimers s).byteAt x = s.byteAt x := rfl
@[simp] theorem tickTimers_pressed (q : Fin 16) : (tickTimers s).pressed q = s.pressed q := rfl
@[simp] theorem tickTimers_drawnByte : (tickTimers s).drawnByte = s.drawnByte := rfl
@[simp] theorem tickTimers_base : (tickTimers s).base = s.base := rfl
@[simp] theorem tickTimers_leastPressed : (tickTimers s).leastPressed = s.leastPressed := rfl

@[simp] theorem clearDrawFlag_cfg : (clearDrawFlag s).cfg = s.cfg := rfl
@[simp] theorem clearDrawFlag_mem : (clearDrawFlag s).mem = s.mem := rfl
@[simp] theorem clearDrawFlag_v : (clearDrawFlag s).v = s.v := rfl
@[simp] theorem clearDrawFlag_i : (clearDrawFlag s).i = s.i := rfl
@[simp] theorem clearDrawFlag_pc : (clearDrawFlag s).pc = s.pc := rfl
@[simp] theorem clearDrawFlag_sp : (clearDrawFlag s).sp = s.sp := rfl
@[simp] theorem clearDrawFlag_stack : (clearDrawFlag s).stack = s.stack := rfl
@[simp] theorem clearDrawFlag_dt : (clearDrawFlag s).dt = s.dt := rfl
@[simp] theorem clearDrawFlag_st : (clearDrawFlag s).st = s.st := rfl
@[simp] theorem clearDrawFlag_fb : (clearDrawFlag s).fb = s.fb := rfl
@[simp] theorem clearDrawFlag_key : (clearDrawFlag s).key = s.key := rfl
@[simp] theorem clearDrawFlag_drawFlag : (clearDrawFlag s).drawFlag = false := rfl
@[simp] theorem clearDrawFlag_rng : (clearDrawFlag s).rng = s.rng := rfl
@[simp] theorem clearDrawFlag_readV (q : Reg) : (clearDrawFlag s).readV q = s.readV q := rfl
@[simp] theorem clearDrawFlag_byteAt (x : Nat) : (clearDrawFlag s).byteAt x = s.byteAt x := rfl
@[simp] theorem clearDrawFlag_pressed (q : Fin 16) : (clearDrawFlag s).pressed q = s.pressed q := rfl
@[simp] theorem clearDrawFlag_drawnByte : (clearDrawFlag s).drawnByte = s.drawnByte := rfl
@[simp] theorem clearDrawFlag_base : (clearDrawFlag s).base = s.base := rfl
@[simp] theorem clearDrawFlag_leastPressed : (clearDrawFlag s).leastPressed = s.leastPressed := rfl

/-! ### Construction -/

@[simp] theorem State.construct_cfg (cfg : Config) (seed : Seed) : (State.construct cfg seed).cfg = cfg := rfl
@[simp] theorem State.construct_mem (cfg : Config) (seed : Seed) : (State.construct cfg seed).mem = [] := rfl
@[simp] theorem State.construct_v (cfg : Config) (seed : Seed) : (State.construct cfg seed).v = Vector.replicate 16 0 := rfl
@[simp] theorem State.construct_i (cfg : Config) (seed : Seed) : (State.construct cfg seed).i = 0x0000 := rfl
@[simp] theorem State.construct_pc (cfg : Config) (seed : Seed) : (State.construct cfg seed).pc = 0x0200 := rfl
@[simp] theorem State.construct_sp (cfg : Config) (seed : Seed) : (State.construct cfg seed).sp = 0 := rfl
@[simp] theorem State.construct_stack (cfg : Config) (seed : Seed) : (State.construct cfg seed).stack = Vector.replicate 16 0 := rfl
@[simp] theorem State.construct_dt (cfg : Config) (seed : Seed) : (State.construct cfg seed).dt = 0 := rfl
@[simp] theorem State.construct_st (cfg : Config) (seed : Seed) : (State.construct cfg seed).st = 0 := rfl
@[simp] theorem State.construct_fb (cfg : Config) (seed : Seed) : (State.construct cfg seed).fb = Vector.replicate 32 0 := rfl
@[simp] theorem State.construct_key (cfg : Config) (seed : Seed) : (State.construct cfg seed).key = Vector.replicate 16 false := rfl
@[simp] theorem State.construct_drawFlag (cfg : Config) (seed : Seed) : (State.construct cfg seed).drawFlag = false := rfl
@[simp] theorem State.construct_rng (cfg : Config) (seed : Seed) : (State.construct cfg seed).rng = ⟨seed, 0⟩ := rfl

end Sys2Proof.Machine
end

