-- ==== Sys2Proof/Laws/Memory.lean ====
section
/-! SUPPORT. Memory: every operation keeps the canonical form, a read after a write gives the byte written and leaves every
other address alone, and the checks raise at the lowest faulting address. -/

namespace Sys2Proof.Machine

variable {f : Font} {m : Memory} {a b : Nat} {v : Byte}

/-! ## The list -/

@[simp] theorem Memory.read_nil : Memory.read f [] a = resetByte f a := rfl

theorem Memory.read_insert : Memory.read f (Memory.insert a v m) b = if b = a then v else Memory.read f m b := by
  induction m with
  | nil => simp only [Memory.insert, Memory.read, eq_comm]
  | cons p rest ih =>
    obtain ⟨c, w⟩ := p
    simp only [Memory.insert]
    split
    · simp only [Memory.read, eq_comm]
    · split
      · rename_i heq
        subst heq
        by_cases h : a = b <;> simp [Memory.read, h, Ne.symm]
      · rename_i heq
        simp only [Memory.read, ih]
        by_cases hc : c = b
        · subst hc; simp [Ne.symm heq]
        · simp [hc]

theorem Memory.read_erase : Memory.read f (Memory.erase a m) b = if b = a then resetByte f a else Memory.read f m b := by
  induction m with
  | nil => by_cases h : b = a <;> simp [Memory.erase, h]
  | cons p rest ih =>
    obtain ⟨c, w⟩ := p
    simp only [Memory.erase] at ih ⊢
    by_cases hc : c = a
    · subst hc
      by_cases h : b = c
      · subst h; simpa [Memory.read] using ih
      · simpa [Memory.read, h, Ne.symm h] using ih
    · by_cases h : b = a
      · subst h; simpa [Memory.read, hc] using ih
      · by_cases hb : c = b <;> simp_all [Memory.read]

/-- A read after a write. -/
theorem Memory.read_write : Memory.read f (Memory.write f m a v) b = if b = a then v else Memory.read f m b := by
  unfold Memory.write
  split
  · rename_i h; rw [Memory.read_erase, h]
  · exact Memory.read_insert

theorem Memory.mem_insert {p : Host.Cell} (h : p ∈ Memory.insert a v m) : p = (a, v) ∨ p ∈ m := by
  induction m with
  | nil => simpa [Memory.insert] using h
  | cons q rest ih =>
    obtain ⟨c, w⟩ := q
    simp only [Memory.insert] at h
    split at h
    · simpa using h
    · split at h
      · rcases List.mem_cons.1 h with h | h <;> simp [h]
      · rcases List.mem_cons.1 h with h | h
        · simp [h]
        · rcases ih h with h | h <;> simp [h]

theorem Memory.insert_sorted (h : m.Pairwise (fun p q => p.1 < q.1)) :
    (Memory.insert a v m).Pairwise (fun p q => p.1 < q.1) := by
  induction m with
  | nil => simp [Memory.insert]
  | cons q rest ih =>
    obtain ⟨c, w⟩ := q
    obtain ⟨hq, hrest⟩ := List.pairwise_cons.1 h
    simp only [Memory.insert]
    split
    · rename_i hlt
      refine List.pairwise_cons.2 ⟨fun p hp => ?_, h⟩
      rcases List.mem_cons.1 hp with rfl | hp
      · exact hlt
      · exact Nat.lt_trans hlt (hq p hp)
    · split
      · rename_i heq
        exact List.pairwise_cons.2 ⟨fun p hp => heq ▸ hq p hp, hrest⟩
      · rename_i hlt heq
        refine List.pairwise_cons.2 ⟨fun p hp => ?_, ih hrest⟩
        rcases Memory.mem_insert hp with rfl | hp
        · exact Nat.lt_of_le_of_ne (Nat.le_of_not_lt hlt) (Ne.symm heq)
        · exact hq p hp

/-- A write inside the space keeps the canonical form. -/
theorem Memory.write_wf (h : Memory.wf f m) (ha : a < 4096) : Memory.wf f (Memory.write f m a v) := by
  obtain ⟨hs, hc⟩ := h
  unfold Memory.write
  split
  · exact ⟨hs.filter _, fun p hp => hc p (List.mem_filter.1 hp).1⟩
  · rename_i hv
    refine ⟨Memory.insert_sorted hs, fun p hp => ?_⟩
    rcases Memory.mem_insert hp with rfl | hp
    · exact ⟨ha, hv⟩
    · exact hc p hp

/-- Two canonical memories that read alike at every address are the same list: equal memories are equal data. -/
theorem Memory.ext_wf {m' : Memory} (h : Memory.wf f m) (h' : Memory.wf f m')
    (heq : ∀ a, Memory.read f m a = Memory.read f m' a) : m = m' := by
  have absent : ∀ {l : Memory} {x : Nat}, (∀ p ∈ l, x < p.1) → Memory.read f l x = resetByte f x := by
    intro l x hl
    induction l with
    | nil => rfl
    | cons p rest ih =>
      have hp := hl p (by simp)
      simp only [Memory.read, Nat.ne_of_gt hp, if_false]
      exact ih fun q hq => hl q (by simp [hq])
  induction m generalizing m' with
  | nil =>
    cases m' with
    | nil => rfl
    | cons q rest =>
      have := heq q.1
      simp only [Memory.read, if_true] at this
      exact absurd this.symm (h'.2 q (by simp)).2
  | cons p rest ih =>
    obtain ⟨hp, hrest⟩ := List.pairwise_cons.1 h.1
    cases m' with
    | nil =>
      have := heq p.1
      simp only [Memory.read, if_true] at this
      exact absurd this (h.2 p (by simp)).2
    | cons q rest' =>
      obtain ⟨hq, hrest'⟩ := List.pairwise_cons.1 h'.1
      rcases Nat.lt_trichotomy p.1 q.1 with hlt | hpq | hgt
      · have := heq p.1
        rw [absent (l := q :: rest') (fun r hr => ?_)] at this
        · simp only [Memory.read, if_true] at this
          exact absurd this (h.2 p (by simp)).2
        · rcases List.mem_cons.1 hr with rfl | hr
          · exact hlt
          · exact Nat.lt_trans hlt (hq r hr)
      · have hv := heq p.1
        simp only [Memory.read, if_true, hpq] at hv
        have hcell : p = q := Prod.ext hpq hv
        subst hcell
        congr 1
        refine ih ⟨hrest, fun r hr => h.2 r (by simp [hr])⟩ ⟨hrest', fun r hr => h'.2 r (by simp [hr])⟩ fun x => ?_
        by_cases hx : p.1 = x
        · subst hx; rw [absent hp, absent hq]
        · have := heq x
          simpa only [Memory.read, hx, if_false] using this
      · have := heq q.1
        rw [absent (l := p :: rest) (fun r hr => ?_)] at this
        · simp only [Memory.read, if_true] at this
          exact absurd this.symm (h'.2 q (by simp)).2
        · rcases List.mem_cons.1 hr with rfl | hr
          · exact hgt
          · exact Nat.lt_trans hgt (hp r hr)

/-! ## The state's memory -/

variable {s : State}

theorem State.byteAt_setByte : (s.setByte a v).byteAt b = if b = a then v else s.byteAt b := Memory.read_write

/-- Storing bytes changes memory alone. -/
theorem State.storeBytes_eq (s : State) (a : Nat) (bs : List Byte) :
    s.storeBytes a bs = { s with mem := (s.storeBytes a bs).mem } := by
  induction bs generalizing s a with
  | nil => rfl
  | cons b rest ih => rw [State.storeBytes, ih]; rfl

section fields
variable (s : State) (a : Nat) (bs : List Byte)
@[simp] theorem State.storeBytes_cfg : (s.storeBytes a bs).cfg = s.cfg := by rw [State.storeBytes_eq]
@[simp] theorem State.storeBytes_v : (s.storeBytes a bs).v = s.v := by rw [State.storeBytes_eq]
@[simp] theorem State.storeBytes_i : (s.storeBytes a bs).i = s.i := by rw [State.storeBytes_eq]
@[simp] theorem State.storeBytes_pc : (s.storeBytes a bs).pc = s.pc := by rw [State.storeBytes_eq]
@[simp] theorem State.storeBytes_sp : (s.storeBytes a bs).sp = s.sp := by rw [State.storeBytes_eq]
@[simp] theorem State.storeBytes_stack : (s.storeBytes a bs).stack = s.stack := by rw [State.storeBytes_eq]
@[simp] theorem State.storeBytes_dt : (s.storeBytes a bs).dt = s.dt := by rw [State.storeBytes_eq]
@[simp] theorem State.storeBytes_st : (s.storeBytes a bs).st = s.st := by rw [State.storeBytes_eq]
@[simp] theorem State.storeBytes_fb : (s.storeBytes a bs).fb = s.fb := by rw [State.storeBytes_eq]
@[simp] theorem State.storeBytes_key : (s.storeBytes a bs).key = s.key := by rw [State.storeBytes_eq]
@[simp] theorem State.storeBytes_drawFlag : (s.storeBytes a bs).drawFlag = s.drawFlag := by rw [State.storeBytes_eq]
@[simp] theorem State.storeBytes_rng : (s.storeBytes a bs).rng = s.rng := by rw [State.storeBytes_eq]
@[simp] theorem State.storeBytes_readV (r : Reg) : (s.storeBytes a bs).readV r = s.readV r := by rw [State.storeBytes_eq]; rfl
end fields

/-- A read outside the stored bytes. -/
theorem State.byteAt_storeBytes_of_lt {bs : List Byte} (h : b < a ∨ a + bs.length ≤ b) :
    (s.storeBytes a bs).byteAt b = s.byteAt b := by
  induction bs generalizing s a with
  | nil => rfl
  | cons v rest ih =>
    rw [State.storeBytes, ih (by simp at h; omega), State.byteAt_setByte, if_neg]
    simp at h; omega

/-- A read of a stored byte. -/
theorem State.byteAt_storeBytes {bs : List Byte} {j : Nat} (h : j < bs.length) :
    (s.storeBytes a bs).byteAt (a + j) = bs[j] := by
  induction bs generalizing s a j with
  | nil => simp at h
  | cons v rest ih =>
    rw [State.storeBytes]
    cases j with
    | zero => rw [State.byteAt_storeBytes_of_lt (by simp), State.byteAt_setByte]; simp
    | succ j =>
      have := ih (s := s.setByte a v) (a := a + 1) (j := j) (by simpa using h)
      rw [show a + (j + 1) = a + 1 + j by omega, this]; simp

/-- A store inside the space keeps the canonical form. -/
theorem State.storeBytes_wf {bs : List Byte} (h : Memory.wf s.cfg.font s.mem) (ha : a + bs.length ≤ 4096) :
    Memory.wf s.cfg.font (s.storeBytes a bs).mem := by
  induction bs generalizing s a with
  | nil => exact h
  | cons v rest ih =>
    simp only [List.length_cons] at ha
    exact ih (s := s.setByte a v) (Memory.write_wf h (by omega)) (by omega)

/-! ## The checks -/

@[simp] theorem mem_addrs {n : Nat} : b ∈ addrs a n ↔ a ≤ b ∧ b < a + n := by simp [addrs, List.mem_range'_1]

@[simp] theorem checkRead_eq_none : checkRead a = none ↔ a ≤ 0xFFF := by simp [checkRead]

@[simp] theorem checkWrite_eq_none {c : Config} :
    checkWrite c a = none ↔ a ≤ 0xFFF ∧ (c.fontProtect = true → 0x50 ≤ a) := by
  unfold checkWrite
  split
  · simp; omega
  · split
    · simp_all
    · simp_all

/-- A read of `n` bytes raises nothing exactly when every address is inside the space. -/
theorem checkReads_eq_none {n : Nat} : checkReads a n = none ↔ n = 0 ∨ a + n ≤ 4096 := by
  simp only [checkReads, List.findSome?_eq_none_iff, mem_addrs, checkRead_eq_none]
  constructor
  · intro h
    by_cases hn : n = 0
    · exact .inl hn
    · have := h (a + n - 1) (by omega); omega
  · rintro h b hb; omega

/-- A store of `n` bytes raises nothing exactly when every address is inside the space and, under protection, above the
font. -/
theorem checkWrites_eq_none {c : Config} {n : Nat} :
    checkWrites c a n = none ↔ n = 0 ∨ (a + n ≤ 4096 ∧ (c.fontProtect = true → 0x50 ≤ a)) := by
  simp only [checkWrites, List.findSome?_eq_none_iff, mem_addrs, checkWrite_eq_none]
  constructor
  · intro h
    by_cases hn : n = 0
    · exact .inl hn
    · have h1 := h (a + n - 1) (by omega)
      have h2 := h a (by omega)
      exact .inr ⟨by omega, h2.2⟩
  · rintro (h | ⟨h, h'⟩) b hb
    · omega
    · exact ⟨by omega, fun hc => Nat.le_trans (h' hc) hb.1⟩

/-- A read of `n` bytes that leaves the space raises at the lowest address outside it. -/
theorem checkReads_eq_some {n : Nat} (hn : n ≠ 0) (h : 4096 < a + n) :
    checkReads a n = some (.addressOutOfRange (max a 0x1000)) := by
  unfold checkReads addrs
  induction n generalizing a with
  | zero => exact absurd rfl hn
  | succ n ih =>
    rw [List.range'_succ, List.findSome?_cons]
    by_cases ha : a > 0xFFF
    · simp [checkRead, ha, Nat.max_eq_left (show 0x1000 ≤ a by omega)]
    · have := ih (a := a + 1) (by omega) (by omega)
      rw [checkRead_eq_none.2 (by omega), this, Nat.max_eq_right (by omega), Nat.max_eq_right (by omega)]

/-- A store of at most 16 bytes that leaves the space raises at the lowest address outside it. -/
theorem checkWrites_eq_range {c : Config} {n : Nat} (hn : n ≠ 0) (h : 4096 < a + n) (hn' : n ≤ 16) :
    checkWrites c a n = some (.addressOutOfRange (max a 0x1000)) := by
  have ha : 0x50 ≤ a := by omega
  clear hn'
  unfold checkWrites addrs
  induction n generalizing a with
  | zero => exact absurd rfl hn
  | succ n ih =>
    rw [List.range'_succ, List.findSome?_cons]
    by_cases hr : a > 0xFFF
    · simp [checkWrite, hr, Nat.max_eq_left (show 0x1000 ≤ a by omega)]
    · have := ih (a := a + 1) (by omega) (by omega) (by omega)
      rw [checkWrite_eq_none.2 ⟨by omega, fun _ => ha⟩, this, Nat.max_eq_right (by omega), Nat.max_eq_right (by omega)]

/-- A store that begins in the protected font raises at its first address. -/
theorem checkWrites_eq_font {c : Config} {n : Nat} (hn : n ≠ 0) (hc : c.fontProtect = true) (ha : a < 0x50) :
    checkWrites c a n = some (.fontWriteViolation a) := by
  obtain ⟨n, rfl⟩ := Nat.exists_eq_succ_of_ne_zero hn
  have : ¬ a > 0xFFF := by omega
  simp [checkWrites, addrs, List.range'_succ, checkWrite, this, hc, ha]

/-- What a check of a store can raise, and where. -/
theorem checkWrites_cases {c : Config} {n : Nat} {r : Raise} (h : checkWrites c a n = some r) :
    (∃ b, r = .addressOutOfRange b ∧ b ∈ addrs a n ∧ 0xFFF < b) ∨
    (∃ b, r = .fontWriteViolation b ∧ b ∈ addrs a n ∧ b < 0x50 ∧ c.fontProtect = true) := by
  obtain ⟨b, hb, hr⟩ := List.exists_of_findSome?_eq_some h
  unfold checkWrite at hr
  split at hr
  · exact .inl ⟨b, by simpa using hr.symm, hb, by omega⟩
  · split at hr
    · rename_i hf; simp at hf; exact .inr ⟨b, by simpa using hr.symm, hb, hf.2, hf.1⟩
    · cases hr

/-- What a check of a read can raise, and where. -/
theorem checkReads_cases {n : Nat} {r : Raise} (h : checkReads a n = some r) :
    ∃ b, r = .addressOutOfRange b ∧ b ∈ addrs a n ∧ 0xFFF < b := by
  obtain ⟨b, hb, hr⟩ := List.exists_of_findSome?_eq_some h
  unfold checkRead at hr
  split at hr
  · exact ⟨b, by simpa using hr.symm, hb, by omega⟩
  · cases hr

end Sys2Proof.Machine
end

