-- ==== Sys2Proof/Laws/Ops.lean ====
section
/-! SUPPORT. The shared operations, one lemma each: registers, flags, skips, the stack, the framebuffer, the keypad, failing a
step. -/

namespace Sys2Proof.Machine

variable {s : State}

/-! ## Registers -/

@[simp] theorem State.readV_writeV (s : State) (r q : Reg) (b : Byte) :
    (s.writeV r b).readV q = if q = r then b else s.readV q := by
  simp only [State.readV, State.writeV, Vector.getElem_set, Fin.ext_iff, eq_comm]

/-- The flag is written last: a destination VF ends as the flag (R171). -/
theorem State.readV_writeVFlag (s : State) (r q : Reg) (b flag : Byte) :
    (s.writeVFlag r b flag).readV q = if q = VF then flag else if q = r then b else s.readV q := by
  simp only [State.writeVFlag, State.readV_writeV]

/-- Writing a register and the flag changes registers alone. -/
theorem State.writeVFlag_eq (s : State) (r : Reg) (b flag : Byte) :
    s.writeVFlag r b flag = { s with v := (s.writeVFlag r b flag).v } := rfl

/-- Loading registers changes registers alone. -/
theorem State.loadV_eq (s : State) (r : Nat) (bs : List Byte) :
    s.loadV r bs = { s with v := (s.loadV r bs).v } := by
  induction bs generalizing s r with
  | nil => rfl
  | cons b rest ih => rw [State.loadV, ih]; split <;> rfl

/-- What a register holds after loading consecutive registers from number r. -/
theorem State.readV_loadV (s : State) (r : Nat) (bs : List Byte) (q : Reg) :
    (s.loadV r bs).readV q = if h : r ≤ q.val ∧ q.val - r < bs.length then bs[q.val - r]'h.2 else s.readV q := by
  induction bs generalizing s r with
  | nil => simp [State.loadV]
  | cons b rest ih =>
    rw [State.loadV, ih]
    by_cases h1 : r + 1 ≤ q.val ∧ q.val - (r + 1) < rest.length
    · have h2 : r ≤ q.val ∧ q.val - r < (b :: rest).length := by simp; omega
      rw [dif_pos h1, dif_pos h2]
      have : q.val - r = (q.val - (r + 1)) + 1 := by omega
      simp [this]
    · rw [dif_neg h1]
      by_cases h2 : r = q.val
      · subst h2; simp [q.isLt]
      · have h3 : ¬(r ≤ q.val ∧ q.val - r < (b :: rest).length) := by simp; omega
        rw [dif_neg h3]
        split
        · rw [State.readV_writeV, if_neg (by rw [Fin.ext_iff]; exact Ne.symm h2)]
        · rfl

@[simp] theorem length_regsUpTo (s : State) (x : Reg) : (s.regsUpTo x).length = regCount x := by
  simp [State.regsUpTo, regCount]

/-- The registers Fx55 stores. -/
theorem getElem_regsUpTo (s : State) (x : Reg) {j : Nat} (h : j < (s.regsUpTo x).length) :
    (s.regsUpTo x)[j] = s.readV ⟨j, by simp [regCount] at h; omega⟩ := by
  simp [State.regsUpTo, State.readV]

@[simp] theorem length_readBytes (s : State) (a n : Nat) : (s.readBytes a n).length = n := by
  simp [State.readBytes, addrs]

/-- The bytes that a multi-byte read gives. -/
theorem getElem_readBytes (s : State) (a n : Nat) {j : Nat} (h : j < (s.readBytes a n).length) :
    (s.readBytes a n)[j] = s.byteAt (a + j) := by
  simp [State.readBytes, addrs]

/-! ## Flags and results, in the naturals -/

@[simp] theorem toNat_flagByte (b : Bool) : (flagByte b).toNat = b.toNat := by cases b <;> rfl

theorem toNat_addResult (a b : Byte) : (addResult a b).toNat = (a.toNat + b.toNat) % 256 := by simp [addResult]

theorem toNat_subResult (a b : Byte) : ((subResult a b).toNat : Int) = ((a.toNat : Int) - b.toNat) % 256 := by
  simp only [subResult, BitVec.toNat_ofInt]
  omega

theorem toNat_shrResult (a : Byte) : (shrResult a).toNat = a.toNat / 2 := by
  simp [shrResult]; omega

theorem toNat_shlResult (a : Byte) : (shlResult a).toNat = a.toNat * 2 % 256 := by simp [shlResult]

theorem toNat_carryFlag (a b : Byte) : (carryFlag a b).toNat = if a.toNat + b.toNat > 255 then 1 else 0 := by
  simp only [carryFlag, toNat_flagByte]; split <;> simp_all

theorem toNat_greaterFlag (a b : Byte) : (greaterFlag a b).toNat = if a.toNat > b.toNat then 1 else 0 := by
  simp only [greaterFlag, toNat_flagByte]; split <;> simp_all

theorem toNat_lowBitFlag (a : Byte) : (lowBitFlag a).toNat = a.toNat % 2 := by
  simp [lowBitFlag]; omega

theorem toNat_highBitFlag (a : Byte) : (highBitFlag a).toNat = a.toNat / 128 := by
  simp [highBitFlag]; omega

theorem toNat_indexFlag (i : Word) (b : Byte) : (indexFlag i b).toNat = if i.toNat + b.toNat > 0xFFF then 1 else 0 := by
  simp only [indexFlag, indexSum, toNat_flagByte]; split <;> simp_all

theorem toNat_glyphAddr (b : Byte) : (glyphAddr b).toNat = b.toNat * 5 := by
  simp [glyphAddr]; omega

theorem toNat_offsetTarget (s : State) (nnn : Addr) : (offsetTarget s nnn).toNat = nnn.toNat + (s.readV V0).toNat := by
  simp [offsetTarget]; omega

@[simp] theorem toNat_toWord (nnn : Addr) : nnn.toWord.toNat = nnn.toNat := by
  simp [Addr.toWord]; omega

/-! ## Skips -/

/-- A skip changes PC alone: by 4 when its condition holds, by 2 otherwise (R124). -/
theorem State.skipIf_eq (s : State) (c : Bool) : s.skipIf c = s.setPC (s.pc + if c then 4 else 2) := by
  cases c <;> rfl

/-! ## Stack -/

/-- What a push can do: nothing on a full stack, else one new live entry on top. -/
theorem State.push?_cases (s : State) (w : Word) :
    (s.sp.val = 16 ∧ s.push? w = none) ∨
    ∃ h : s.sp.val < 16, s.push? w = some { s with stack := s.stack.set s.sp.val w, sp := ⟨s.sp.val + 1, by omega⟩ } := by
  by_cases h : s.sp.val < 16
  · exact .inr ⟨h, by simp [State.push?, h]⟩
  · exact .inl ⟨by omega, by simp [State.push?, h]⟩

/-- What a pop can do: nothing on an empty stack, else the top entry goes out of the live ones and stays in its place. -/
theorem State.pop?_cases (s : State) :
    (s.sp.val = 0 ∧ s.pop? = none) ∨
    ∃ h : 0 < s.sp.val, s.pop? = some (s.stack[s.sp.val - 1], { s with sp := ⟨s.sp.val - 1, by omega⟩ }) := by
  by_cases h : 0 < s.sp.val
  · exact .inr ⟨h, by simp [State.pop?, h]⟩
  · exact .inl ⟨by omega, by simp [State.pop?, h]⟩

/-! ## Framebuffer -/

theorem Framebuffer.pixel_toggle (fb : Framebuffer) {p q : Nat} (hp : p < 2048) (hq : q < 2048) :
    (fb.toggle p).pixel q = (fb.pixel q ^^ decide (q = p)) := by
  simp only [Framebuffer.toggle, Framebuffer.pixel, hp, hq, dif_pos, Vector.getElem_set]
  by_cases h : p / 64 = q / 64
  · have h1 : p % 64 < 64 := Nat.mod_lt _ (by decide)
    have h2 : q % 64 < 64 := Nat.mod_lt _ (by decide)
    by_cases he : q = p
    · subst he; simp [h1]
    · have : p % 64 ≠ q % 64 := by omega
      simp [h, he, BitVec.getLsbD_twoPow, this]
  · have : q ≠ p := by rintro rfl; exact h rfl
    simp [h, this]

/-- Toggling one pixel leaves every other as it was. -/
theorem Framebuffer.pixel_toggle_of_ne (fb : Framebuffer) {p q : Nat} (h : q ≠ p) : (fb.toggle p).pixel q = fb.pixel q := by
  by_cases hp : p < 2048
  · by_cases hq : q < 2048
    · simp [Framebuffer.pixel_toggle fb hp hq, h]
    · simp [Framebuffer.pixel, hq]
  · simp [Framebuffer.toggle, hp]

@[simp] theorem Framebuffer.pixel_clear (p : Nat) : Framebuffer.clear.pixel p = false := by
  simp [Framebuffer.clear, Framebuffer.pixel]

/-- Two framebuffers with the same pixels are the same. -/
theorem Framebuffer.ext_pixel {fb gb : Framebuffer} (h : ∀ p, p < 2048 → fb.pixel p = gb.pixel p) : fb = gb := by
  refine Vector.ext fun r hr => BitVec.eq_of_getLsbD_eq fun c hc => ?_
  have := h (c + 64 * r) (by omega)
  have h1 : (c + 64 * r) / 64 = r := by omega
  have h2 : (c + 64 * r) % 64 = c := by omega
  simpa [Framebuffer.pixel, h1, h2, show c + 64 * r < 2048 by omega] using this

theorem pixelIndex_lt (c r : Nat) : pixelIndex c r < 2048 := Nat.mod_lt _ (by decide)

/-! ## Keypad -/

@[simp] theorem State.pressed_setKey (s : State) (k j : Fin 16) (b : Bool) :
    (s.setKey k b).pressed j = if j = k then b else s.pressed j := by
  simp only [State.pressed, State.setKey, Vector.getElem_set, Fin.ext_iff, eq_comm]

theorem State.leastPressed_eq_none : s.leastPressed = none ↔ ∀ k, s.pressed k = false := by
  simp [State.leastPressed, List.find?_eq_none]

/-- The key that Fx0A takes is pressed, and no lower one is. -/
theorem State.leastPressed_eq_some {k : Fin 16} :
    s.leastPressed = some k ↔ s.pressed k = true ∧ ∀ j, j < k → s.pressed j = false := by
  rw [State.leastPressed, List.find?_eq_some_iff_getElem]
  constructor
  · rintro ⟨hk, i, hi, rfl, hlt⟩
    refine ⟨hk, fun j hj => ?_⟩
    have hj' : j.val < i := by simpa [List.getElem_finRange, Fin.lt_def] using hj
    simpa [List.getElem_finRange] using hlt j.val hj'
  · rintro ⟨hk, hlt⟩
    refine ⟨hk, k.val, by simp, by simp [List.getElem_finRange], fun j hj => ?_⟩
    simpa [List.getElem_finRange] using hlt ⟨j, by omega⟩ (by simpa [Fin.lt_def] using hj)

/-- The key named by a register (R251, R252). -/
theorem keyOperand_cases (s : State) (x : Reg) :
    (15 < (s.readV x).toNat ∧ keyOperand s x = none) ∨
    ∃ h : (s.readV x).toNat < 16, keyOperand s x = some ⟨(s.readV x).toNat, h⟩ := by
  by_cases h : (s.readV x).toNat < 16
  · exact .inr ⟨h, by simp [keyOperand, h]⟩
  · exact .inl ⟨by omega, by simp [keyOperand, h]⟩

/-! ## Failing -/

@[simp] theorem Raise.pc_at (pc : Word) (c : Raise) : (c.at pc).pc = pc := by cases c <;> rfl

theorem raise_eq (c : Raise) (s : State) : raise c s = .fault (c.at s.pc) := rfl

@[simp] theorem raise_ne_next (c : Raise) (s t : State) : raise c s ≠ .next t := nofun

@[simp] theorem raise_ne_refused (c : Raise) (s : State) (r : Refusal) : raise c s ≠ .refused r := nofun

end Sys2Proof.Machine
end

