-- ==== Sys2Proof/Laws/Exec.lean ====
section
/-! SUPPORT. What the instructions that check something before they run can do: for each, the two ways it can end, with the
condition of each. The other instructions are one equation, their definition. -/

namespace Sys2Proof.Machine

/-- 00EE: underflow, or the top entry plus 2 (R141). -/
theorem execRet_cases (s : State) :
    (s.sp.val = 0 ∧ execRet s = .fault (.stackUnderflow s.pc)) ∨
    ∃ h : 0 < s.sp.val, execRet s =
      .next (State.setPC { s with sp := ⟨s.sp.val - 1, by omega⟩ } (s.stack[s.sp.val - 1] + 2)) := by
  rcases s.pop?_cases with ⟨h0, h⟩ | ⟨h0, h⟩
  · exact .inl ⟨h0, by simp only [execRet, h]; rfl⟩
  · exact .inr ⟨h0, by simp only [execRet, h]⟩

/-- 2nnn: overflow, or the address of the call on top of the stack (R143). -/
theorem execCall_cases (nnn : Addr) (s : State) :
    (s.sp.val = 16 ∧ execCall nnn s = .fault (.stackOverflow s.pc)) ∨
    ∃ h : s.sp.val < 16, execCall nnn s =
      .next (State.setPC { s with stack := s.stack.set s.sp.val s.pc, sp := ⟨s.sp.val + 1, by omega⟩ } nnn.toWord) := by
  rcases s.push?_cases s.pc with ⟨h0, h⟩ | ⟨h0, h⟩
  · exact .inl ⟨h0, by simp only [execCall, h]; rfl⟩
  · exact .inr ⟨h0, by simp only [execCall, h]; rfl⟩

/-- How a store of 1 to 16 bytes from I can end: out of range, in the protected font, or allowed (R63, R64). -/
theorem checkWrites_base (s : State) {n : Nat} (hn : n ≠ 0) (hn' : n ≤ 16) :
    (4096 < s.i.toNat + n ∧ checkWrites s.cfg s.base n = some (.addressOutOfRange (max s.i.toNat 0x1000))) ∨
    (s.cfg.fontProtect = true ∧ s.i.toNat < 0x50 ∧ checkWrites s.cfg s.base n = some (.fontWriteViolation s.i.toNat)) ∨
    (s.i.toNat + n ≤ 4096 ∧ (s.cfg.fontProtect = true → 0x50 ≤ s.i.toNat) ∧ checkWrites s.cfg s.base n = none) := by
  by_cases hr : 4096 < s.i.toNat + n
  · exact .inl ⟨hr, checkWrites_eq_range hn hr hn'⟩
  · by_cases hf : s.cfg.fontProtect = true ∧ s.i.toNat < 0x50
    · exact .inr (.inl ⟨hf.1, hf.2, checkWrites_eq_font hn hf.1 hf.2⟩)
    · have h : s.cfg.fontProtect = true → 0x50 ≤ s.i.toNat := fun hp => by
        by_contra hlt; exact hf ⟨hp, by omega⟩
      exact .inr (.inr ⟨by omega, h, checkWrites_eq_none.2 (.inr ⟨by rw [State.base]; omega, h⟩)⟩)

/-- How a read of n bytes from I can end: out of range, or allowed (R62, R64). -/
theorem checkReads_base (s : State) (n : Nat) :
    (n ≠ 0 ∧ 4096 < s.i.toNat + n ∧ checkReads s.base n = some (.addressOutOfRange (max s.i.toNat 0x1000))) ∨
    ((n = 0 ∨ s.i.toNat + n ≤ 4096) ∧ checkReads s.base n = none) := by
  by_cases h : n = 0 ∨ s.i.toNat + n ≤ 4096
  · exact .inr ⟨h, checkReads_eq_none.2 h⟩
  · exact .inl ⟨by omega, by omega, checkReads_eq_some (by omega) (by rw [State.base]; omega)⟩

/-- Ex9E: an invalid key code, or a skip by the key (R251). -/
theorem execSkp_cases (x : Reg) (s : State) :
    (15 < (s.readV x).toNat ∧ execSkp x s = .fault (.invalidKeyCode s.pc (s.readV x))) ∨
    ∃ h : (s.readV x).toNat < 16, execSkp x s = .next (s.skipIf (s.pressed ⟨(s.readV x).toNat, h⟩)) := by
  rcases keyOperand_cases s x with ⟨h0, h⟩ | ⟨h0, h⟩
  · exact .inl ⟨h0, by simp only [execSkp, h]; rfl⟩
  · exact .inr ⟨h0, by simp only [execSkp, h]⟩

/-- ExA1: an invalid key code, or a skip by the key (R252). -/
theorem execSknp_cases (x : Reg) (s : State) :
    (15 < (s.readV x).toNat ∧ execSknp x s = .fault (.invalidKeyCode s.pc (s.readV x))) ∨
    ∃ h : (s.readV x).toNat < 16, execSknp x s = .next (s.skipIf (!s.pressed ⟨(s.readV x).toNat, h⟩)) := by
  rcases keyOperand_cases s x with ⟨h0, h⟩ | ⟨h0, h⟩
  · exact .inl ⟨h0, by simp only [execSknp, h]; rfl⟩
  · exact .inr ⟨h0, by simp only [execSknp, h]⟩

/-- Fx0A: a no-op with no key pressed, else the least pressed key (R256). -/
theorem execLdVxK_cases (x : Reg) (s : State) :
    ((∀ k, s.pressed k = false) ∧ execLdVxK x s = .next s) ∨
    ∃ k, s.pressed k = true ∧ (∀ j, j < k → s.pressed j = false) ∧
      execLdVxK x s = .next (s.writeV x (BitVec.ofNat 8 k.val)).advance := by
  rcases h : s.leastPressed with _ | k
  · exact .inl ⟨State.leastPressed_eq_none.1 h, by simp only [execLdVxK, h]⟩
  · exact .inr ⟨k, (State.leastPressed_eq_some.1 h).1, (State.leastPressed_eq_some.1 h).2, by simp only [execLdVxK, h]⟩

/-- One bit of a sprite: its pixel toggles, and the collision is recorded, exactly when the bit is set (R233). -/
theorem Canvas.drawBit_cases (b : Byte) (xs ys row : Nat) (d : Canvas) (col : Nat) :
    (spriteBit b col = true ∧ Canvas.drawBit b xs ys row d col =
      { fb := d.fb.toggle (pixelIndex (xs + col) (ys + row)),
        collision := d.collision || d.fb.pixel (pixelIndex (xs + col) (ys + row)) }) ∨
    (spriteBit b col = false ∧ Canvas.drawBit b xs ys row d col = d) := by
  rcases h : spriteBit b col with _ | _
  · exact .inr ⟨rfl, by simp [Canvas.drawBit, h]⟩
  · exact .inl ⟨rfl, by simp [Canvas.drawBit, h]⟩

/-- A pixel under no set bit of a sprite's row stays as it was. -/
theorem Canvas.pixel_drawRow_of_clear {b : Byte} {xs ys row p : Nat} {d : Canvas}
    (h : ∀ c, c < 8 → spriteBit b c = true → pixelIndex (xs + c) (ys + row) ≠ p) :
    (Canvas.drawRow b xs ys row d).fb.pixel p = d.fb.pixel p := by
  have h' : ∀ c ∈ List.range 8, spriteBit b c = true → pixelIndex (xs + c) (ys + row) ≠ p :=
    fun c hc => h c (List.mem_range.1 hc)
  unfold Canvas.drawRow
  generalize List.range 8 = cols at h'
  induction cols generalizing d with
  | nil => rfl
  | cons c cs ih =>
    rw [List.foldl_cons, ih fun c hc => h' c (List.mem_cons_of_mem _ hc)]
    rcases Canvas.drawBit_cases b xs ys row d c with ⟨hb, he⟩ | ⟨-, he⟩ <;> rw [he]
    exact Framebuffer.pixel_toggle_of_ne _ (h' c List.mem_cons_self hb).symm

/-- A pixel under no set bit of a sprite stays as it was (R233). -/
theorem Canvas.pixel_drawRows_of_clear {bs : List Byte} {xs ys row p : Nat} {d : Canvas}
    (h : ∀ j, (hj : j < bs.length) → ∀ c, c < 8 → spriteBit bs[j] c = true → pixelIndex (xs + c) (ys + (row + j)) ≠ p) :
    (Canvas.drawRows xs ys row bs d).fb.pixel p = d.fb.pixel p := by
  induction bs generalizing row d with
  | nil => rfl
  | cons b bs ih =>
    rw [Canvas.drawRows, ih]
    · exact Canvas.pixel_drawRow_of_clear (h 0 (by simp))
    · intro j hj c hc hb
      rw [show row + 1 + j = row + (j + 1) by omega]
      exact h (j + 1) (by simpa using hj) c hc (by simpa using hb)

/-- Distinct bits of one sprite fall on distinct pixels (R234 (a)). -/
theorem pixelIndex_inj {xs ys r c r' c' : Nat} (hr : r < 15) (hr' : r' < 15) (hc : c < 8) (hc' : c' < 8)
    (h : pixelIndex (xs + c) (ys + r) = pixelIndex (xs + c') (ys + r')) : r = r' ∧ c = c' := by
  unfold pixelIndex at h; omega

end Sys2Proof.Machine
end

