-- ==== Sys2Proof/Laws/PerInstr.lean ====
section
/-! SUPPORT. The family EncodeRow: the word of an instruction has the fixed bits of its row in the table of R95. One lemma
per instruction; the operand bits fall outside the mask. -/

namespace Sys2Proof.Laws.EncodeRow

/-- The encoded word matches the row of its instruction. -/
def Statement (i : Instr) : Prop := i.row.matches (encode i) = true

/-! ## The masks of the table as numbers -/

theorem and_F000 (w : Word) : (w &&& 0xF000#16).toNat = w.toNat / 0x1000 * 0x1000 := by
  have h : w &&& 0xF000#16 = (w >>> 12) <<< 12 := by
    refine BitVec.eq_of_getLsbD_eq fun i hi => ?_
    interval_cases i <;> simp
  rw [h]; simp [Nat.shiftLeft_eq, Nat.shiftRight_eq_div_pow]; omega

theorem and_000F (w : Word) : (w &&& 0x000F#16).toNat = w.toNat % 16 := by
  simp; exact Nat.and_two_pow_sub_one_eq_mod _ 4

theorem and_00FF (w : Word) : (w &&& 0x00FF#16).toNat = w.toNat % 256 := by
  simp; exact Nat.and_two_pow_sub_one_eq_mod _ 8

/-- A mask of two disjoint parts takes the sum of what the parts take. -/
theorem and_parts (w a b : Word) (h : a &&& b = 0#16) :
    (w &&& (a ||| b)).toNat = ((w &&& a).toNat + (w &&& b).toNat) % 2 ^ 16 := by
  have h2 : (w &&& a) &&& (w &&& b) = 0#16 := by
    rw [BitVec.and_assoc, ← BitVec.and_assoc a, BitVec.and_comm a, BitVec.and_assoc w, h]; simp
  rw [BitVec.and_or_distrib_left, ← BitVec.add_eq_or_of_and_eq_zero _ _ h2, BitVec.toNat_add]

theorem and_F00F (w : Word) : (w &&& 0xF00F#16).toNat = w.toNat / 0x1000 * 0x1000 + w.toNat % 16 := by
  rw [show 0xF00F#16 = 0xF000#16 ||| 0x000F#16 from rfl, and_parts _ _ _ rfl, and_F000, and_000F]; omega

theorem and_F0FF (w : Word) : (w &&& 0xF0FF#16).toNat = w.toNat / 0x1000 * 0x1000 + w.toNat % 256 := by
  rw [show 0xF0FF#16 = 0xF000#16 ||| 0x00FF#16 from rfl, and_parts _ _ _ rfl, and_F000, and_00FF]; omega

/-! ## One lemma per format (R92) -/

theorem matches_NNN (op : Nibble) (nnn : Addr) :
    OpcodeRow.matches ⟨0xF000#16, BitVec.ofNat 16 (op.toNat * 0x1000)⟩ (wordNNN op nnn) = true := by
  simp only [OpcodeRow.matches, beq_iff_eq]
  apply BitVec.eq_of_toNat_eq
  rw [and_F000, toNat_wordNNN, BitVec.toNat_ofNat]; omega

theorem matches_XKK (op : Nibble) (x : Reg) (kk : Byte) :
    OpcodeRow.matches ⟨0xF000#16, BitVec.ofNat 16 (op.toNat * 0x1000)⟩ (wordXKK op x kk) = true := by
  simp only [OpcodeRow.matches, beq_iff_eq]
  apply BitVec.eq_of_toNat_eq
  rw [and_F000, toNat_wordXKK, BitVec.toNat_ofNat]; omega

theorem matches_XYN (op : Nibble) (x y : Reg) (n : Nibble) :
    OpcodeRow.matches ⟨0xF000#16, BitVec.ofNat 16 (op.toNat * 0x1000)⟩ (wordXYN op x y n) = true := by
  simp only [OpcodeRow.matches, beq_iff_eq]
  apply BitVec.eq_of_toNat_eq
  rw [and_F000, toNat_wordXYN, BitVec.toNat_ofNat]; omega

theorem matches_XYS (op : Nibble) (x y : Reg) (n : Nibble) :
    OpcodeRow.matches ⟨0xF00F#16, BitVec.ofNat 16 (op.toNat * 0x1000 + n.toNat)⟩ (wordXYN op x y n) = true := by
  simp only [OpcodeRow.matches, beq_iff_eq]
  apply BitVec.eq_of_toNat_eq
  rw [and_F00F, toNat_wordXYN, BitVec.toNat_ofNat]; omega

theorem matches_XS (op : Nibble) (x : Reg) (kk : Byte) :
    OpcodeRow.matches ⟨0xF0FF#16, BitVec.ofNat 16 (op.toNat * 0x1000 + kk.toNat)⟩ (wordXKK op x kk) = true := by
  simp only [OpcodeRow.matches, beq_iff_eq]
  apply BitVec.eq_of_toNat_eq
  rw [and_F0FF, toNat_wordXKK, BitVec.toNat_ofNat]; omega

/-! ## One lemma per instruction -/

theorem cls : Statement .cls := rfl
theorem ret : Statement .ret := rfl
theorem jp (nnn : Addr) : Statement (.jp nnn) := matches_NNN 0x1#4 nnn
theorem call (nnn : Addr) : Statement (.call nnn) := matches_NNN 0x2#4 nnn
theorem seByte (x : Reg) (kk : Byte) : Statement (.seByte x kk) := matches_XKK 0x3#4 x kk
theorem sneByte (x : Reg) (kk : Byte) : Statement (.sneByte x kk) := matches_XKK 0x4#4 x kk
theorem seReg (x y : Reg) : Statement (.seReg x y) := matches_XYS 0x5#4 x y 0x0#4
theorem ldByte (x : Reg) (kk : Byte) : Statement (.ldByte x kk) := matches_XKK 0x6#4 x kk
theorem addByte (x : Reg) (kk : Byte) : Statement (.addByte x kk) := matches_XKK 0x7#4 x kk
theorem ldReg (x y : Reg) : Statement (.ldReg x y) := matches_XYS 0x8#4 x y 0x0#4
theorem orReg (x y : Reg) : Statement (.orReg x y) := matches_XYS 0x8#4 x y 0x1#4
theorem andReg (x y : Reg) : Statement (.andReg x y) := matches_XYS 0x8#4 x y 0x2#4
theorem xorReg (x y : Reg) : Statement (.xorReg x y) := matches_XYS 0x8#4 x y 0x3#4
theorem addReg (x y : Reg) : Statement (.addReg x y) := matches_XYS 0x8#4 x y 0x4#4
theorem sub (x y : Reg) : Statement (.sub x y) := matches_XYS 0x8#4 x y 0x5#4
theorem shr (x y : Reg) : Statement (.shr x y) := matches_XYS 0x8#4 x y 0x6#4
theorem subn (x y : Reg) : Statement (.subn x y) := matches_XYS 0x8#4 x y 0x7#4
theorem shl (x y : Reg) : Statement (.shl x y) := matches_XYS 0x8#4 x y 0xE#4
theorem sneReg (x y : Reg) : Statement (.sneReg x y) := matches_XYS 0x9#4 x y 0x0#4
theorem ldI (nnn : Addr) : Statement (.ldI nnn) := matches_NNN 0xA#4 nnn
theorem jpV0 (nnn : Addr) : Statement (.jpV0 nnn) := matches_NNN 0xB#4 nnn
theorem rnd (x : Reg) (kk : Byte) : Statement (.rnd x kk) := matches_XKK 0xC#4 x kk
theorem drw (x y : Reg) (n : Nibble) : Statement (.drw x y n) := matches_XYN 0xD#4 x y n
theorem skp (x : Reg) : Statement (.skp x) := matches_XS 0xE#4 x 0x9E#8
theorem sknp (x : Reg) : Statement (.sknp x) := matches_XS 0xE#4 x 0xA1#8
theorem ldVxDt (x : Reg) : Statement (.ldVxDt x) := matches_XS 0xF#4 x 0x07#8
theorem ldVxK (x : Reg) : Statement (.ldVxK x) := matches_XS 0xF#4 x 0x0A#8
theorem ldDtVx (x : Reg) : Statement (.ldDtVx x) := matches_XS 0xF#4 x 0x15#8
theorem ldStVx (x : Reg) : Statement (.ldStVx x) := matches_XS 0xF#4 x 0x18#8
theorem addI (x : Reg) : Statement (.addI x) := matches_XS 0xF#4 x 0x1E#8
theorem ldF (x : Reg) : Statement (.ldF x) := matches_XS 0xF#4 x 0x29#8
theorem ldB (x : Reg) : Statement (.ldB x) := matches_XS 0xF#4 x 0x33#8
theorem storeRegs (x : Reg) : Statement (.storeRegs x) := matches_XS 0xF#4 x 0x55#8
theorem loadRegs (x : Reg) : Statement (.loadRegs x) := matches_XS 0xF#4 x 0x65#8

end Sys2Proof.Laws.EncodeRow
end

