-- ==== Sys2Proof/Laws/Step.lean ====
section
/-! SUPPORT. What the fetch and the step can do: the fetch lemma, one inversion lemma for the step with its outcome, and the
step in the host's outcomes. -/

namespace Sys2Proof.Machine

variable {s t : State}

/-- The fetch gives the word at PC, or fails because the word does not lie inside the space (R121). -/
theorem fetch_cases (s : State) :
    (s.pc.toNat ≤ 0xFFE ∧ fetch s = .ok (s.wordAt s.pc.toNat)) ∨
    (0xFFE < s.pc.toNat ∧ fetch s = .error (.addressOutOfRange (max s.pc.toNat 0x1000))) := by
  by_cases h : s.pc.toNat ≤ 0xFFE
  · exact .inl ⟨h, by simp [fetch, checkFetch, checkReads_eq_none.2 (.inr (show s.pc.toNat + 2 ≤ 4096 by omega))]⟩
  · exact .inr ⟨by omega, by simp [fetch, checkFetch, checkReads_eq_some (show 2 ≠ 0 by decide) (show 4096 < s.pc.toNat + 2 by omega)]⟩

/-- The fetch of a word that lies inside the space. -/
theorem fetch_ok (h : s.pc.toNat ≤ 0xFFE) : fetch s = .ok (s.wordAt s.pc.toNat) := by
  rcases fetch_cases s with ⟨-, h'⟩ | ⟨h', -⟩
  · exact h'
  · omega

/-- Everything a step can do. -/
theorem stepOutcome_cases (s : State) :
    (0xFFE < s.pc.toNat ∧ stepOutcome s = (s, .fail (.addressOutOfRange s.pc (max s.pc.toNat 0x1000)))) ∨
    (s.pc.toNat ≤ 0xFFE ∧ decode s.cfg (s.wordAt s.pc.toNat) = .unmapped ∧
      stepOutcome s = (s.advance, .unmapped s.pc (s.wordAt s.pc.toNat))) ∨
    ∃ i, s.pc.toNat ≤ 0xFFE ∧ decode s.cfg (s.wordAt s.pc.toNat) = .instr i ∧
      ((∃ t, exec i s = .next t ∧ stepOutcome s = (t, .ok)) ∨
       (∃ f, exec i s = .fault f ∧ stepOutcome s = (s, .fail f)) ∨
       (∃ r, exec i s = .refused r ∧ stepOutcome s = (s, .refused r))) := by
  rcases fetch_cases s with ⟨hpc, hf⟩ | ⟨hpc, hf⟩
  · rcases hd : decode s.cfg (s.wordAt s.pc.toNat) with i | _
    · refine .inr (.inr ⟨i, hpc, rfl, ?_⟩)
      rcases he : exec i s with t | f | r
      · exact .inl ⟨t, rfl, by simp [stepOutcome, hf, hd, he]⟩
      · exact .inr (.inl ⟨f, rfl, by simp [stepOutcome, hf, hd, he]⟩)
      · exact .inr (.inr ⟨r, rfl, by simp [stepOutcome, hf, hd, he]⟩)
    · exact .inr (.inl ⟨hpc, rfl, by simp [stepOutcome, hf, hd, skipUnmapped]⟩)
  · exact .inl ⟨hpc, by simp [stepOutcome, hf, Raise.at]⟩

/-- The inversion of the step: a next state comes from skipping an unmapped word or from executing the decoded
instruction. -/
theorem step_cases (h : step s = .next t) :
    (s.pc.toNat ≤ 0xFFE ∧ decode s.cfg (s.wordAt s.pc.toNat) = .unmapped ∧ t = s.advance) ∨
    ∃ i, s.pc.toNat ≤ 0xFFE ∧ decode s.cfg (s.wordAt s.pc.toNat) = .instr i ∧ exec i s = .next t := by
  rcases stepOutcome_cases s with ⟨-, ho⟩ | ⟨hpc, hd, ho⟩ | ⟨i, hpc, hd, ⟨u, he, ho⟩ | ⟨f, he, ho⟩ | ⟨r, he, ho⟩⟩ <;>
    simp only [step, ho] at h <;> cases h
  · exact .inl ⟨hpc, hd, rfl⟩
  · exact .inr ⟨i, hpc, hd, he⟩

/-- A store of the word under PC is what the fetch reads. -/
theorem wordAt_storeBytes (s : State) (a : Nat) (w : Word) :
    (s.storeBytes a [highByte w, lowByte w]).wordAt a = w := by
  have h0 := State.byteAt_storeBytes (s := s) (a := a) (bs := [highByte w, lowByte w]) (j := 0) (by simp)
  have h1 := State.byteAt_storeBytes (s := s) (a := a) (bs := [highByte w, lowByte w]) (j := 1) (by simp)
  simp only [Nat.add_zero, List.getElem_cons_zero, List.getElem_cons_succ] at h0 h1
  rw [State.wordAt, h0, h1, wordOfBytes_bytes]

/-- After `withFetchWord` the next step fetches that word. -/
theorem fetch_withFetchWord (h : s.pc.toNat ≤ 0xFFE) (w : Nat) :
    fetch (s.withFetchWord 16 w) = .ok (BitVec.ofNat 16 (w % 2 ^ 16)) := by
  rw [State.withFetchWord, State.placeWord, if_pos h]
  rw [fetch_ok (by simpa using h), State.storeBytes_pc, wordAt_storeBytes]

/-- A run of the host's interface, one step at a time. -/
theorem core_run_next (h : step s = .next t) (k : Nat) :
    Host.Core.run Sys2Proof.core (k + 1) s = Host.Core.run Sys2Proof.core k t := by
  have h' : Sys2Proof.core.step s = .next t := h
  exact (Host.Core.run.eq_2 Sys2Proof.core s k).trans (by rw [h'])

end Sys2Proof.Machine
end

