-- ==== Sys2Proof/Tests/Slice0.lean ====
section
/-! SUPPORT. Tests on fixed values, whose expected results come from the spec's vectors (95_test_vectors.md, cited by their
numbers there) or from the patterns of 30_encoding.md R92 and R95, and the witnesses of the obligations' hypotheses. -/

open Sys2Proof Sys2Proof.Machine

namespace Sys2Proof.Tests

/-! ## Helpers -/

/-- The state after construction with the word under test at 0x200: the start of every vector of 95_test_vectors.md. -/
def at200 (w : Nat) : State := State.reset.withFetchWord 16 w

/-- The state with registers written. -/
def withV (s : State) (l : List (Reg × Byte)) : State := l.foldl (fun s p => s.writeV p.1 p.2) s

/-- The state with a byte of memory written. -/
def withByte (s : State) (a : Nat) (b : Byte) : State := s.setByte a b

/-- The step gives a next state of which `p` holds. -/
def stepsTo (s : State) (p : State → Bool) : Bool :=
  match step s with
  | .next t => p t
  | .fault _ => false
  | .refused _ => false

/-- The step fails with `f`. -/
def stepFails (s : State) (f : Fault) : Bool :=
  match step s with
  | .next _ => false
  | .fault g => g == f
  | .refused _ => false

/-- The parameters with Annn and Bnnn left out. -/
def strictConfig : Config := { Config.default with includeAnnnBnnn := false }

/-! ## Well-formed instructions (R94): what the check refuses and what it lets through -/

theorem test_ldI_ill_formed : (Instr.ldI 0x300).wellFormed strictConfig = false := by decide
theorem test_jpV0_ill_formed : (Instr.jpV0 0x300).wellFormed strictConfig = false := by decide
theorem test_ldI_well_formed : (Instr.ldI 0x300).wellFormed Config.default = true := by decide
theorem test_jp_well_formed : (Instr.jp 0x300).wellFormed strictConfig = true := by decide

/-! ## Decoding: one word of each row, written out from its pattern (R95) -/

theorem test_decode_cls : decode Config.default 0b0000000011100000#16 = .instr .cls := by decide
theorem test_decode_ret : decode Config.default 0b0000000011101110#16 = .instr .ret := by decide
theorem test_decode_jp : decode Config.default 0b0001101010111100#16 = .instr (.jp 0xABC) := by decide
theorem test_decode_call : decode Config.default 0b0010101010111100#16 = .instr (.call 0xABC) := by decide
theorem test_decode_seByte : decode Config.default 0b0011000101000010#16 = .instr (.seByte 1 0x42) := by decide
theorem test_decode_sneByte : decode Config.default 0b0100000101000010#16 = .instr (.sneByte 1 0x42) := by decide
theorem test_decode_seReg : decode Config.default 0b0101000100100000#16 = .instr (.seReg 1 2) := by decide
theorem test_decode_ldByte : decode Config.default 0b0110101001000010#16 = .instr (.ldByte 10 0x42) := by decide
theorem test_decode_addByte : decode Config.default 0b0111000011111111#16 = .instr (.addByte 0 0xFF) := by decide
theorem test_decode_ldReg : decode Config.default 0b1000000100100000#16 = .instr (.ldReg 1 2) := by decide
theorem test_decode_orReg : decode Config.default 0b1000000100100001#16 = .instr (.orReg 1 2) := by decide
theorem test_decode_andReg : decode Config.default 0b1000000100100010#16 = .instr (.andReg 1 2) := by decide
theorem test_decode_xorReg : decode Config.default 0b1000000100100011#16 = .instr (.xorReg 1 2) := by decide
theorem test_decode_addReg : decode Config.default 0b1000000100100100#16 = .instr (.addReg 1 2) := by decide
theorem test_decode_sub : decode Config.default 0b1000000100100101#16 = .instr (.sub 1 2) := by decide
theorem test_decode_shr : decode Config.default 0b1000000100100110#16 = .instr (.shr 1 2) := by decide
theorem test_decode_subn : decode Config.default 0b1000000100100111#16 = .instr (.subn 1 2) := by decide
theorem test_decode_shl : decode Config.default 0b1000000100101110#16 = .instr (.shl 1 2) := by decide
theorem test_decode_sneReg : decode Config.default 0b1001000100100000#16 = .instr (.sneReg 1 2) := by decide
theorem test_decode_ldI : decode Config.default 0b1010001100000000#16 = .instr (.ldI 0x300) := by decide
theorem test_decode_jpV0 : decode Config.default 0b1011111111111111#16 = .instr (.jpV0 0xFFF) := by decide
theorem test_decode_rnd : decode Config.default 0b1100101000001111#16 = .instr (.rnd 10 0x0F) := by decide
theorem test_decode_drw : decode Config.default 0b1101000100100101#16 = .instr (.drw 1 2 5) := by decide
theorem test_decode_skp : decode Config.default 0b1110001110011110#16 = .instr (.skp 3) := by decide
theorem test_decode_sknp : decode Config.default 0b1110001110100001#16 = .instr (.sknp 3) := by decide
theorem test_decode_ldVxDt : decode Config.default 0b1111001100000111#16 = .instr (.ldVxDt 3) := by decide
theorem test_decode_ldVxK : decode Config.default 0b1111001100001010#16 = .instr (.ldVxK 3) := by decide
theorem test_decode_ldDtVx : decode Config.default 0b1111001100010101#16 = .instr (.ldDtVx 3) := by decide
theorem test_decode_ldStVx : decode Config.default 0b1111001100011000#16 = .instr (.ldStVx 3) := by decide
theorem test_decode_addI : decode Config.default 0b1111001100011110#16 = .instr (.addI 3) := by decide
theorem test_decode_ldF : decode Config.default 0b1111001100101001#16 = .instr (.ldF 3) := by decide
theorem test_decode_ldB : decode Config.default 0b1111001100110011#16 = .instr (.ldB 3) := by decide
theorem test_decode_storeRegs : decode Config.default 0b1111001101010101#16 = .instr (.storeRegs 3) := by decide
theorem test_decode_loadRegs : decode Config.default 0b1111001101100101#16 = .instr (.loadRegs 3) := by decide

/-- S10, S11: Annn and Bnnn are unmapped when the parameter leaves them out. -/
theorem test_decode_strict : decode strictConfig 0xB300 = .unmapped ∧ decode strictConfig 0xA300 = .unmapped := by decide

/-- The bytes of a word are read high byte first (R66), and the rest of the bytes is left. -/
theorem test_decodeBytes : decodeBytes Config.default [0x6A, 0x42, 0x99] = .ok (.ldByte 10 0x42, [0x99]) := by rfl
theorem test_decodeTableWord : decodeTableWord 16 0x6A42 = some (.ldByte 10 0x42) := by decide

/-! ## The step -/

/-- S4: 0nnn is skipped, and reported with its address and word. -/
theorem test_unmapped_skips : stepOutcome (at200 0x0123) = ((at200 0x0123).setPC 0x202, .unmapped 0x200 0x0123) := by decide
/-- S1. -/
theorem test_fetch_at_top : stepFails (State.reset.setPC 0xFFF) (.addressOutOfRange 0xFFF 0x1000) = true := by decide
/-- S2. -/
theorem test_fetch_above : stepFails (State.reset.setPC 0x1000) (.addressOutOfRange 0x1000 0x1000) = true := by decide
/-- S3: the last word that can be fetched runs. -/
theorem test_fetch_last_word :
    stepsTo ((State.reset.setPC 0xFFE).withFetchWord 16 0x1200) (fun t => t.pc == 0x200) = true := by decide

/-! ## Control flow -/

/-- CF4. -/
theorem test_ret : stepsTo { at200 0x00EE with sp := 1, stack := State.reset.stack.set 0 0x204 }
    (fun t => t.pc == 0x206 && t.sp == 0 && t.stack[0] == 0x204) = true := by decide
/-- CF5. -/
theorem test_ret_empty : stepFails (at200 0x00EE) (.stackUnderflow 0x200) = true := by decide
/-- CF1. -/
theorem test_jp : stepsTo (at200 0x1ABC) (fun t => t.pc == 0xABC) = true := by decide
/-- CF2. -/
theorem test_call : stepsTo ({ State.reset with pc := 0x300, sp := 3 }.withFetchWord 16 0x2ABC)
    (fun t => t.stack[3] == 0x300 && t.sp == 4 && t.pc == 0xABC) = true := by decide
/-- CF3. -/
theorem test_call_full : stepFails ({ State.reset with pc := 0x300, sp := 16 }.withFetchWord 16 0x2ABC)
    (.stackOverflow 0x300) = true := by decide
/-- CF7: the sum is not truncated to 12 bits. -/
theorem test_jpV0 : stepsTo (withV (at200 0xBFFF) [(0, 0xFF)]) (fun t => t.pc == 0x10FE) = true := by decide
/-- CF8. -/
theorem test_seByte_equal : stepsTo (withV (at200 0x3142) [(1, 0x42)]) (fun t => t.pc == 0x204) = true := by decide
/-- CF9. -/
theorem test_seByte_differ : stepsTo (withV (at200 0x3142) [(1, 0x41)]) (fun t => t.pc == 0x202) = true := by decide
/-- CF10. -/
theorem test_sneByte_equal : stepsTo (withV (at200 0x4142) [(1, 0x42)]) (fun t => t.pc == 0x202) = true := by decide
/-- CF11. -/
theorem test_sneByte_differ : stepsTo (withV (at200 0x4142) [(1, 0x41)]) (fun t => t.pc == 0x204) = true := by decide
/-- CF12. -/
theorem test_seReg_equal : stepsTo (withV (at200 0x5120) [(1, 7), (2, 7)]) (fun t => t.pc == 0x204) = true := by decide
/-- CF13. -/
theorem test_seReg_differ : stepsTo (withV (at200 0x5120) [(1, 7), (2, 8)]) (fun t => t.pc == 0x202) = true := by decide
/-- CF14. -/
theorem test_sneReg_differ : stepsTo (withV (at200 0x9120) [(1, 7), (2, 8)]) (fun t => t.pc == 0x204) = true := by decide
/-- CF15. -/
theorem test_sneReg_equal : stepsTo (withV (at200 0x9120) [(1, 7), (2, 7)]) (fun t => t.pc == 0x202) = true := by decide

/-! ## Arithmetic, logic and random -/

/-- A1. -/
theorem test_ldByte : stepsTo (at200 0x6A42) (fun t => t.readV 10 == 0x42 && t.pc == 0x202) = true := by decide
/-- A2: the sum wraps and VF stays. -/
theorem test_addByte : stepsTo (withV (at200 0x70FF) [(0, 2), (VF, 9)]) (fun t => t.readV 0 == 1 && t.readV VF == 9) = true := by
  decide
/-- A3. -/
theorem test_ldReg : stepsTo (withV (at200 0x8120) [(1, 0xAA), (2, 0x55)]) (fun t => t.readV 1 == 0x55) = true := by decide
/-- A4. -/
theorem test_orReg : stepsTo (withV (at200 0x8121) [(1, 0xF0), (2, 0x0F), (VF, 7)])
    (fun t => t.readV 1 == 0xFF && t.readV VF == 7) = true := by decide
/-- A5. -/
theorem test_andReg : stepsTo (withV (at200 0x8122) [(1, 0xF0), (2, 0x3C), (VF, 7)])
    (fun t => t.readV 1 == 0x30 && t.readV VF == 7) = true := by decide
/-- A6. -/
theorem test_xorReg : stepsTo (withV (at200 0x8123) [(1, 0xFF), (2, 0x0F), (VF, 7)])
    (fun t => t.readV 1 == 0xF0 && t.readV VF == 7) = true := by decide
/-- A9. -/
theorem test_addReg : stepsTo (withV (at200 0x8014) [(0, 0x80), (1, 0x80)])
    (fun t => t.readV 0 == 0 && t.readV VF == 1) = true := by decide
/-- A22: the flag is written last. -/
theorem test_addReg_vf : stepsTo (withV (at200 0x8F14) [(VF, 0xFF), (1, 1)]) (fun t => t.readV VF == 1) = true := by decide
/-- A11: the flag is strict. -/
theorem test_sub_equal : stepsTo (withV (at200 0x8015) [(0, 3), (1, 3)])
    (fun t => t.readV 0 == 0 && t.readV VF == 0) = true := by decide
/-- A23. -/
theorem test_sub_vf : stepsTo (withV (at200 0x8F15) [(VF, 5), (1, 3)]) (fun t => t.readV VF == 1) = true := by decide
/-- A13: Vy is ignored. -/
theorem test_shr : stepsTo (withV (at200 0x8016) [(0, 0x81), (1, 0x55)])
    (fun t => t.readV 0 == 0x40 && t.readV VF == 1) = true := by decide
/-- A15. -/
theorem test_subn : stepsTo (withV (at200 0x8017) [(0, 3), (1, 5)])
    (fun t => t.readV 0 == 2 && t.readV VF == 1) = true := by decide
/-- A17. -/
theorem test_subn_wraps : stepsTo (withV (at200 0x8017) [(0, 5), (1, 3)])
    (fun t => t.readV 0 == 0xFE && t.readV VF == 0) = true := by decide
/-- A19. -/
theorem test_shl : stepsTo (withV (at200 0x801E) [(0, 0x40), (1, 0x81)])
    (fun t => t.readV 0 == 0x80 && t.readV VF == 0) = true := by decide
/-- A21: with the other source, the flag is still the old high bit of Vx. -/
theorem test_shl_vy : stepsTo (withV { at200 0x801E with cfg := { Config.default with shlSource := .vy } } [(0, 0x40), (1, 0x81)])
    (fun t => t.readV 0 == 2 && t.readV VF == 0) = true := by decide
/-- A28: the result is masked, and a draw is consumed. -/
theorem test_rnd : ∃ t, exec (.rnd 10 0) State.reset = .next t ∧ t.readV 10 = 0 ∧ t.rng.draws = 1 :=
  ⟨_, rfl, by simp, rfl⟩

/-! ## Index register and memory -/

/-- M1. -/
theorem test_ldI : stepsTo (at200 0xA300) (fun t => t.i == 0x300 && t.pc == 0x202) = true := by decide
/-- M3: the sum is not masked to 12 bits. -/
theorem test_addI : stepsTo (withV { at200 0xF11E with i := 0xFFF } [(1, 1)])
    (fun t => t.i == 0x1000 && t.readV VF == 1) = true := by decide
/-- M5. -/
theorem test_addI_wraps : stepsTo (withV { at200 0xF11E with i := 0xFFFF } [(1, 2)])
    (fun t => t.i == 1 && t.readV VF == 1) = true := by decide
/-- M8: the whole of Vx is multiplied. -/
theorem test_ldF : stepsTo (withV (at200 0xF029) [(0, 0xFF)]) (fun t => t.i == 0x4FB) = true := by decide
/-- M9. -/
theorem test_ldB : stepsTo (withV { at200 0xF033 with i := 0x300 } [(0, 0xFF)])
    (fun t => t.byteAt 0x300 == 2 && t.byteAt 0x301 == 5 && t.byteAt 0x302 == 5) = true := by decide
/-- M11. -/
theorem test_ldB_font : stepFails (withV { at200 0xF033 with i := 0x4E } [(0, 0xFF)]) (.fontWriteViolation 0x200 0x4E) = true := by
  decide
/-- M14. -/
theorem test_storeRegs : stepsTo (withV { at200 0xF255 with i := 0x400 } [(0, 1), (1, 2), (2, 3)])
    (fun t => t.readBytes 0x400 4 == [1, 2, 3, 0] && t.i == 0x400) = true := by decide
/-- M16. -/
theorem test_storeRegs_above : stepFails { at200 0xFF55 with i := 0xFF1 } (.addressOutOfRange 0x200 0x1000) = true := by decide
/-- M18: the font is read. -/
theorem test_loadRegs : stepsTo (withV (at200 0xF265) [(3, 9)])
    (fun t => t.readV 0 == 0xF0 && t.readV 1 == 0x90 && t.readV 2 == 0x90 && t.readV 3 == 9) = true := by decide
/-- M20. -/
theorem test_loadRegs_above : stepFails { at200 0xF265 with i := 0xFFE } (.addressOutOfRange 0x200 0x1000) = true := by decide

/-! ## Display -/

/-- W2. -/
theorem test_cls : stepsTo { at200 0x00E0 with fb := State.reset.fb.set 1 5 }
    (fun t => !t.fb.pixel 64 && !t.fb.pixel 66 && t.drawFlag) = true := by decide
/-- D3: the row below the last is the first. -/
theorem test_drw_wraps : stepsTo (withV (withByte (withByte { at200 0xD012 with i := 0x300 } 0x300 0x80) 0x301 0x80) [(1, 31)])
    (fun t => t.fb == (State.reset.fb.set 0 1).set 31 1 && t.readV VF == 0 && t.drawFlag) = true := by decide
/-- D6: the column is read from VF before VF takes the flag. -/
theorem test_drw_collision :
    stepsTo (withV (withByte { at200 0xDF01 with i := 0x300, fb := State.reset.fb.set 0 4 } 0x300 0x80) [(VF, 2)])
      (fun t => !t.fb.pixel 2 && t.readV VF == 1) = true := by decide

/-! ## Keypad and timers -/

/-- K1. -/
theorem test_skp : stepsTo (withV ((at200 0xE09E).setKey 3 true) [(0, 3)]) (fun t => t.pc == 0x204) = true := by decide
/-- K5. -/
theorem test_skp_invalid : stepFails (withV (at200 0xE09E) [(0, 0x10)]) (.invalidKeyCode 0x200 0x10) = true := by decide
/-- K3. -/
theorem test_sknp : stepsTo (withV (at200 0xE0A1) [(0, 3)]) (fun t => t.pc == 0x204) = true := by decide
/-- K4. -/
theorem test_sknp_pressed : stepsTo (withV ((at200 0xE0A1).setKey 3 true) [(0, 3)]) (fun t => t.pc == 0x202) = true := by decide
/-- K9. -/
theorem test_ldVxDt : stepsTo { at200 0xF007 with dt := 0x3C } (fun t => t.readV 0 == 0x3C && t.dt == 0x3C) = true := by decide
/-- K10. -/
theorem test_ldDtVx : stepsTo (withV (at200 0xF315) [(3, 0x3C)]) (fun t => t.dt == 0x3C && t.st == 0) = true := by decide
/-- K11. -/
theorem test_ldStVx : stepsTo (withV (at200 0xF318) [(3, 5)]) (fun t => t.st == 5 && t.dt == 0) = true := by decide
/-- K6. -/
theorem test_ldVxK_waits : stepOutcome (at200 0xF10A) = (at200 0xF10A, .ok) := by decide
/-- K7: the least pressed key, and both stay pressed. -/
theorem test_ldVxK : stepsTo (((at200 0xF10A).setKey 9 true).setKey 5 true)
    (fun t => t.readV 1 == 5 && t.pc == 0x202 && t.pressed 5 && t.pressed 9) = true := by decide

/-! ## The host's operations -/

/-- K12, K13. -/
theorem test_tick : perform .tickTimers { State.reset with dt := 2, st := 0 } = ({ State.reset with dt := 1, st := 0 }, .ok) := by
  decide
/-- W7: one byte too many. -/
theorem test_load_too_large : perform (.load (List.replicate 3585 0)) State.reset = (State.reset, .romTooLarge 3585) := by
  have h : (List.replicate 3585 (0 : Byte)).length = 3585 := List.length_replicate
  generalize List.replicate 3585 (0 : Byte) = l at h
  rw [← h]; exact if_pos (by rw [h]; decide)
/-- H6: the bytes after the program stay. -/
theorem test_load : (perform (.load [0xAA]) (perform (.load [0x11, 0x22, 0x33, 0x44]) State.reset).1).1.readBytes 0x200 5 =
    [0xAA, 0x22, 0x33, 0x44, 0] := by decide
/-- A failure at 0x1FF of the word E09E with V0 = 0x10: a load over the low byte makes the word E0FF, which is unmapped (R334, R121,
R96; log entry 10). -/
theorem test_load_ends_failure_at_1FF :
    performAll [.step, .load [0xFF], .step]
      (withV (withByte (withByte { State.reset with pc := 0x1FF } 0x1FF 0xE0) 0x200 0x9E) [(0, 0x10)]) =
    (withV (withByte (withByte { State.reset with pc := 0x201 } 0x1FF 0xE0) 0x200 0xFF) [(0, 0x10)],
      [.fail (.invalidKeyCode 0x1FF 0x10), .ok, .unmapped 0x1FF 0xE0FF]) := by decide
/-- K14. -/
theorem test_press_invalid : perform (.pressKey 16) State.reset = (State.reset, .invalidKeyCode 16) := by decide
/-- W6: a press ends the wait. -/
theorem test_press : (performAll [.step, .pressKey 7, .step] (at200 0xF30A)).1.readV 3 = 7 := by decide
/-- H1. -/
theorem test_pixel : (perform (.pixel 5) { State.reset with fb := State.reset.fb.set 0 0x20 }).2 = .bit true := by decide
/-- H2. -/
theorem test_pixel_invalid : perform (.pixel 2048) State.reset = (State.reset, .invalidPixelIndex 2048) := by decide
/-- H3. -/
theorem test_clear_draw_flag : performAll [.clearDrawFlag, .drawFlag] { State.reset with drawFlag := true } =
    (State.reset, [.ok, .flag false]) := by decide

/-! ## Witnesses: states and operands that meet the hypotheses of the obligations, at the ends of their ranges -/

theorem witness_DecodeOfEncodeIsTheInstruction :
    (Instr.ldI 0xFFF).wellFormed Config.default = true ∧ (Instr.drw 15 15 15).wellFormed strictConfig = true := by decide
theorem witness_DecodedWordIsTheEncoding : decode strictConfig 0x8FFE = .instr (.shl 15 15) := by decide
theorem witness_UnmappedMeansNoRowMatches :
    decode strictConfig 0xBFFF = .unmapped ∧ (∀ r ∈ strictConfig.opcodeRows, r.matches 0xBFFF = false) := by decide
theorem witness_StepExecutesTheDecodedInstruction (s : State) (hs : s = (State.reset.setPC 0xFFE).withFetchWord 16 0x1200) :
    s.pc.toNat ≤ 0xFFE ∧ decode s.cfg (BitVec.ofNat 16
      ((s.byteAt s.pc.toNat).toNat * 256 + (s.byteAt (s.pc.toNat + 1)).toNat)) = .instr (.jp 0x200) := by
  subst hs; decide
theorem witness_UnmappedWordIsSkippedAndReported :
    fetch (at200 0x0123) = .ok 0x0123 ∧ decode (at200 0x0123).cfg 0x0123 = .unmapped := ⟨rfl, by decide⟩
theorem witness_FetchAboveTheTopFails :
    0xFFE < (State.reset.setPC 0xFFF).pc.toNat ∧ 0xFFE < (State.reset.setPC 0xFFFF).pc.toNat := by decide
theorem witness_reset_inv : State.reset.Inv where
  memory := ⟨.nil, by simp [State.reset, State.construct]⟩
  font := fun _ a h => by simp [State.byteAt, State.reset, State.construct, resetByte, h]
  live := fun j h hj => by simp [State.reset, State.construct] at hj
  target := by decide
theorem witness_StepKeepsTheInvariant : State.reset.Inv ∧ step State.reset = .next (State.reset.setPC 0x202) :=
  ⟨witness_reset_inv, rfl⟩
theorem witness_ReachableStatesMeetTheInvariant : State.Reachable (State.reset.setPC 0x202) :=
  ⟨Config.default, .entropy 0, [.step], by decide⟩
theorem witness_StepChangesOnlyWhatItsRuleWrites_instr :
    step (at200 0x1ABC) = .next ((at200 0x1ABC).setPC 0xABC) ∧
    decode (at200 0x1ABC).cfg ((at200 0x1ABC).wordAt (at200 0x1ABC).pc.toNat) = .instr (.jp 0xABC) := ⟨rfl, by decide⟩
theorem witness_StepChangesOnlyWhatItsRuleWrites_flag :
    step { at200 0x0123 with drawFlag := true } = .next { at200 0x0123 with drawFlag := true, pc := 0x202 } := rfl
theorem witness_StepChangesOnlyWhatItsRuleWrites_call :
    stepsTo ({ State.reset with sp := 15 }.withFetchWord 16 0x2ABC) (fun t => t.pc == 0xABC) = true ∧
    (changesOf (.call 0xABC) { State.reset with sp := 15 }).entries = [15] ∧
    (changesOf (.ldVxK 1) State.reset).v = [] ∧ (changesOf (.ldVxK 1) (State.reset.setKey 15 true)).v = [1] := by decide
theorem witness_OtherInstructionsAdvancePCByTwo :
    (exec (.ldVxK 0) State.reset = .next State.reset ∧ setsTarget (.ldVxK 0) = false ∧ waitsForKey (.ldVxK 0) State.reset) ∧
    exec (.seByte 0 0) State.reset = .next (State.reset.setPC 0x204) ∧ setsTarget (.seByte 0 0) = false ∧
    ¬waitsForKey (.seByte 0 0) State.reset ∧ takesSkip (.seByte 0 0) State.reset = true :=
  ⟨⟨rfl, rfl, ⟨0, rfl⟩, by decide⟩, rfl, rfl, (by rintro ⟨⟨x, h⟩, -⟩; cases h), by decide⟩
theorem witness_EveryFaultHasItsCause :
    exec (.call 0) { State.reset with sp := 16 } = .fault (.stackOverflow 0x200) ∧
    exec .ret State.reset = .fault (.stackUnderflow 0x200) ∧
    exec (.drw 0 0 2) { State.reset with i := 0xFFF } = .fault (.addressOutOfRange 0x200 0x1000) ∧
    exec (.ldB 0) { State.reset with i := 0xFFE } = .fault (.addressOutOfRange 0x200 0x1000) ∧
    exec (.loadRegs 0) { State.reset with i := 0xFFFF } = .fault (.addressOutOfRange 0x200 0xFFFF) ∧
    exec (.storeRegs 0) { State.reset with i := 0x4F } = .fault (.fontWriteViolation 0x200 0x4F) ∧
    exec (.skp 0) (withV State.reset [(0, 0x10)]) = .fault (.invalidKeyCode 0x200 0x10) :=
  ⟨rfl, rfl, rfl, rfl, rfl, rfl, rfl⟩
theorem witness_RandomSourceIsReadByRndAlone : ∀ x kk, Instr.cls ≠ .rnd x kk := by simp
theorem witness_KeypadIsReadByThreeInstructions : ∀ x, Instr.cls ≠ .skp x ∧ Instr.cls ≠ .sknp x ∧ Instr.cls ≠ .ldVxK x := by simp
theorem witness_SoundAndScreenAreOutputs :
    (∃ x, Instr.ldStVx 3 = .ldStVx x) ∧ (∀ x, Instr.cls ≠ .ldStVx x) ∧ (∃ x y n, Instr.drw 1 2 3 = .drw x y n) ∧
    (Instr.ret ≠ .cls ∧ ∀ x y n, Instr.ret ≠ .drw x y n) := by simp
theorem witness_WaitingForAKeyChangesNothing : (at200 0xF30A).waiting := ⟨3, by unfold State.atInstr; decide, by decide⟩
theorem witness_KeyPressEndsTheWait :
    (at200 0xF30A).atInstr (.ldVxK 3) ∧ (∀ k, (at200 0xF30A).pressed k = false) ∧ (0 : Int) ≤ 15 ∧ (15 : Int) ≤ 15 := by
  unfold State.atInstr; decide
theorem witness_SelfJumpChangesNothing : (at200 0x1200).atSelfJump := ⟨0x200, by unfold State.atInstr; decide, by decide⟩
theorem witness_CallPushesItsAddress : ({ State.reset with sp := 15 } : State).sp.val < 16 := by decide
theorem witness_ReturnGoesPastTheTopEntry : 0 < ({ State.reset with sp := 1 } : State).sp.val := by decide
theorem witness_StackLimitsFailTheStep : ({ State.reset with sp := 16 } : State).sp.val = 16 ∧ State.reset.sp.val = 0 := by decide
theorem witness_ReturnUndoesCall : ∃ t, exec (.call 0xFFF) { State.reset with sp := 15 } = .next t ∧
    (t.setPC 0x300).sp = t.sp ∧ (t.setPC 0x300).stack = t.stack := ⟨_, rfl, rfl, rfl⟩
theorem witness_JumpGoesToItsTarget : (0x200 : Addr).toNat = State.reset.pc.toNat := by decide
theorem witness_RegisterSkipsCompareRegisters : (15 : Nibble) ≠ 0#4 := by decide
theorem witness_RandomIsMaskedAndConsumesOneDraw : (0x0F : Byte).getLsbD 7 = false := by decide
/-- The clauses of the obligations on 8xy4, 8xy5, 8xy6, 8xy7 and 8xyE for a destination other than VF. -/
theorem witness_destination_other_than_VF : (0 : Reg) ≠ VF ∧ Config.default.shlSource = .vx := by decide
theorem witness_ShiftLeftDoublesItsSource :
    ({ State.reset with cfg := { Config.default with shlSource := .vy } } : State).cfg.shlSource = .vy := by decide
theorem witness_BcdStoresThreeDigits :
    (({ State.reset with i := 0xFFD } : State).i.toNat + 2 ≤ 0xFFF) ∧
    (({ State.reset with i := 0x50 } : State).i.toNat + 2 ≤ 0xFFF) ∧
    (State.reset.cfg.fontProtect = true → 0x50 ≤ ({ State.reset with i := 0x50 } : State).i.toNat) := by decide
theorem witness_StoreRegistersWritesI :
    (({ State.reset with i := 0xFF0 } : State).i.toNat + (15 : Reg).val ≤ 0xFFF) ∧
    (State.reset.cfg.fontProtect = true → 0x50 ≤ ({ State.reset with i := 0xFF0 } : State).i.toNat) := by decide
theorem witness_LoadRegistersReadsI : ({ State.reset with i := 0xFF0 } : State).i.toNat + (15 : Reg).val ≤ 0xFFF := by decide
theorem witness_AccessAboveTheTopFails :
    ((2 : Nibble) ≠ 0 ∧ 0xFFF < ({ State.reset with i := 0xFFF } : State).i.toNat + (2 : Nibble).toNat - 1) ∧
    0xFFF < ({ State.reset with i := 0xFFE } : State).i.toNat + 2 ∧
    0xFFF < ({ State.reset with i := 0x1000 } : State).i.toNat + (0 : Reg).val := by decide
theorem witness_FontStoreFails :
    State.reset.cfg.fontProtect = true ∧ ({ State.reset with i := 0x4F } : State).i.toNat < 0x50 := by decide
theorem witness_DrawTogglesThePixelsOfTheSprite :
    ((15 : Nibble) ≠ 0 → ({ State.reset with i := 0xFF1 } : State).i.toNat + (15 : Nibble).toNat - 1 ≤ 0xFFF) ∧
    spriteCovers State.reset 0 0 1 0 ∧ ¬spriteCovers State.reset 0 0 0 0 := by
  refine ⟨by decide, ⟨0, 0, by decide, by decide, by decide, by decide⟩, ?_⟩
  rintro ⟨row, col, h, -⟩; exact absurd h (by simp)
/-- D10: one draw, then PC goes back to the instruction. -/
theorem witness_DrawingTwiceRestoresTheScreen : ∃ t, exec (.drw 0 0 5) State.reset = .next t ∧
    (t.setPC 0x200).fb = t.fb ∧ (t.setPC 0x200).i = State.reset.i ∧
    (∀ a, (t.setPC 0x200).byteAt a = State.reset.byteAt a) ∧ (t.setPC 0x200).readV 0 = State.reset.readV 0 :=
  ⟨_, rfl, rfl, rfl, fun _ => rfl, rfl⟩
theorem witness_KeySkipsFollowTheKey :
    State.reset.key[(State.reset.readV 0).toNat]? = some false ∧
    (let s := withV (State.reset.setKey 15 true) [(0, 15)]; s.key[(s.readV 0).toNat]? = some true) := by decide
theorem witness_KeyAboveFifteenFails : 15 < ((withV State.reset [(0, 16)]).readV 0).toNat := by decide
theorem witness_WaitTakesTheLeastPressedKey :
    (∀ k, State.reset.pressed k = false) ∧ (State.reset.setKey 15 true).pressed 15 = true ∧
    (∀ j, j < 15 → (State.reset.setKey 15 true).pressed j = false) := by decide
theorem witness_LoadCopiesAllOrNothing :
    (List.replicate 3584 (0 : Byte)).length ≤ 3584 ∧ 3584 < (List.replicate 3585 (0 : Byte)).length := by
  simp only [List.length_replicate]; decide
theorem witness_KeyNotificationsSetOneKey : ((0 : Int) ≤ 15 ∧ (15 : Int) ≤ 15) ∧ ((-1 : Int) < 0 ∨ 15 < (-1 : Int)) := by decide
theorem witness_QueriesAnswerFromTheState : ((0 : Int) ≤ 2047 ∧ (2047 : Int) ≤ 2047) ∧ 2047 < (2048 : Int) := by decide
theorem witness_SteppingWithoutALoadRunsToTheTop :
    performAll (List.replicate 2 .step) State.reset =
      (State.reset.setPC 0x204, [.unmapped 0x200 0, .unmapped 0x202 0]) ∧ 1792 ≤ 1792 := by decide
theorem witness_ConstructionLeavesTheResetValues : State.reset = State.construct Config.default (.entropy 0) ∧ 15 < 16 ∧ 4 < 5 ∧
    0x50 ≤ 0xFFF := by decide
theorem witness_HostOperationsKeepTheInvariant : State.reset.Inv := witness_reset_inv

end Sys2Proof.Tests
end

section
/-! The family of 10_state.md: construction, the invariant of R40 under every operation of the host, and what each
instruction depends on. -/

namespace Sys2Proof.Machine

variable {s t : State}

/-! ## Construction (R37) -/

/-- The font lies at 5d of glyph d (R38). -/
theorem resetByte_glyph (f : Font) {d k : Nat} (hd : d < 16) (hk : k < 5) : resetByte f (5 * d + k) = f[d][k] := by
  have hdiv : (5 * d + k) / 5 = d := by omega
  have hmod : (5 * d + k) % 5 = k := by omega
  simp only [resetByte, dif_pos (show 5 * d + k < 80 by omega), hdiv, hmod]

/-- Above the font construction leaves zero (R61). -/
theorem resetByte_of_le (f : Font) {a : Nat} (h : 0x50 ≤ a) : resetByte f a = 0 := dif_neg (by omega)

/-- Settles O58: field by field, memory by the two rules of `resetByte`. -/
theorem constructionLeavesTheResetValues : Obligations.ConstructionLeavesTheResetValues := by
  rintro c seed s rfl
  refine ⟨fun d k hd hk => resetByte_glyph c.font hd hk, fun a ha _ => resetByte_of_le c.font ha, ?_,
    rfl, rfl, rfl, ?_, rfl, rfl, fun p _ => Framebuffer.pixel_clear p, ?_, rfl, rfl⟩
  · simp [State.readV]
  · simp
  · simp [State.pressed]

/-- Settles O10: memory lists no cell, the stack has no live entry. -/
theorem constructionMeetsTheInvariant : Obligations.ConstructionMeetsTheInvariant := fun c seed =>
  { memory := ⟨.nil, by simp⟩
    font := fun _ a ha => dif_pos ha
    live := fun j _ hj => absurd hj (Nat.not_lt_zero j)
    target := by simp }

/-! ## The invariant and the operations of the state -/

namespace State.Inv

/-- The invariant looks at the parameters, memory, SP, the stack and PC alone. -/
theorem congr (h : s.Inv) (hcfg : t.cfg = s.cfg) (hmem : t.mem = s.mem) (hsp : t.sp = s.sp)
    (hstack : t.stack = s.stack) (hpc : t.pc = s.pc) : t.Inv := by
  obtain ⟨memory, font, live, target⟩ := h
  refine ⟨by rwa [hcfg, hmem], ?_, by simpa only [hsp, hstack] using live, by rwa [hpc]⟩
  simpa only [State.byteAt, hcfg, hmem] using font

theorem writeV (h : s.Inv) (r : Reg) (b : Byte) : (s.writeV r b).Inv := h.congr rfl rfl rfl rfl rfl

theorem writeVFlag (h : s.Inv) (r : Reg) (b flag : Byte) : (s.writeVFlag r b flag).Inv := (h.writeV r b).writeV VF flag

theorem loadV (h : s.Inv) (r : Nat) (bs : List Byte) : (s.loadV r bs).Inv := by
  rw [State.loadV_eq]; exact h.congr rfl rfl rfl rfl rfl

theorem setI (h : s.Inv) (w : Word) : (s.setI w).Inv := h.congr rfl rfl rfl rfl rfl

theorem setDT (h : s.Inv) (b : Byte) : (s.setDT b).Inv := h.congr rfl rfl rfl rfl rfl

theorem setST (h : s.Inv) (b : Byte) : (s.setST b).Inv := h.congr rfl rfl rfl rfl rfl

theorem redraw (h : s.Inv) (fb : Framebuffer) : (s.redraw fb).Inv := h.congr rfl rfl rfl rfl rfl

theorem setKey (h : s.Inv) (k : Fin 16) (b : Bool) : (s.setKey k b).Inv := h.congr rfl rfl rfl rfl rfl

theorem advanceRng (h : s.Inv) : s.advanceRng.Inv := h.congr rfl rfl rfl rfl rfl

theorem setPC (h : s.Inv) {w : Word} (hw : w.toNat ≤ 0x10FE) : (s.setPC w).Inv := ⟨h.memory, h.font, h.live, hw⟩

/-- PC + 2, after an instruction that could be fetched (R140). -/
theorem advance (h : s.Inv) (hpc : s.pc.toNat ≤ 0xFFE) : s.advance.Inv :=
  h.setPC (by rw [BitVec.toNat_add]; simp; omega)

/-- A skip goes to PC + 4 at most (R140). -/
theorem skipIf (h : s.Inv) (hpc : s.pc.toNat ≤ 0xFFE) (c : Bool) : (s.skipIf c).Inv := by
  rw [State.skipIf_eq]
  exact h.setPC (by cases c <;> simp <;> omega)

/-- A store keeps the invariant where its checks allow it: inside the space and, under protection, above the font (R65). -/
theorem storeBytes (h : s.Inv) {a : Nat} {bs : List Byte} (hspace : a + bs.length ≤ 4096)
    (hfont : s.cfg.fontProtect = true → 0x50 ≤ a) : (s.storeBytes a bs).Inv where
  memory := by rw [State.storeBytes_cfg]; exact State.storeBytes_wf h.memory hspace
  font := by
    rw [State.storeBytes_cfg]
    intro hp b hb
    have hlow : b < a := Nat.lt_of_lt_of_le hb (hfont hp)
    rw [State.byteAt_storeBytes_of_lt (.inl hlow), h.font hp b hb]
  live := by simpa using h.live
  target := by simpa using h.target

/-- A store that the check of Fx33 and Fx55 lets through. -/
theorem storeBytes_of_checkWrites (h : s.Inv) {a : Nat} {bs : List Byte} (hc : checkWrites s.cfg a bs.length = none) :
    (s.storeBytes a bs).Inv := by
  rcases checkWrites_eq_none.1 hc with hnil | ⟨hspace, hfont⟩
  · rw [List.length_eq_zero_iff.1 hnil]; exact h
  · exact h.storeBytes hspace hfont

/-- 2nnn pushes the address of an instruction that could be fetched (R40, R143). -/
theorem push (h : s.Inv) (hsp : s.sp.val < 16) {w : Word} (hw : w.toNat ≤ 0xFFE) :
    State.Inv { s with stack := s.stack.set s.sp.val w, sp := ⟨s.sp.val + 1, by omega⟩ } where
  memory := h.memory
  font := h.font
  live j hj hlive := by
    simp only [Vector.getElem_set]
    split
    · exact hw
    · exact h.live j hj (by simp at hlive; omega)
  target := h.target

/-- 00EE makes the top entry dead and leaves the others (R141). -/
theorem pop (h : s.Inv) (n : Fin 17) (hn : n.val ≤ s.sp.val) : State.Inv { s with sp := n } where
  memory := h.memory
  font := h.font
  live j hj hlive := h.live j hj (Nat.lt_of_lt_of_le hlive hn)
  target := h.target

/-! ## The invariant and the instructions that check something first -/

theorem of_execRet (h : s.Inv) (he : execRet s = .next t) : t.Inv := by
  rcases execRet_cases s with ⟨-, hr⟩ | ⟨hsp, hr⟩ <;> rw [hr] at he <;> cases he
  have htop : s.stack[s.sp.val - 1].toNat ≤ 0xFFE := h.live _ (by omega) (by omega)
  exact (h.pop _ (Nat.sub_le _ _)).setPC (by rw [BitVec.toNat_add]; simp; omega)

theorem of_execCall (h : s.Inv) (hpc : s.pc.toNat ≤ 0xFFE) {nnn : Addr} (he : execCall nnn s = .next t) : t.Inv := by
  rcases execCall_cases nnn s with ⟨-, hr⟩ | ⟨hsp, hr⟩ <;> rw [hr] at he <;> cases he
  exact (h.push hsp hpc).setPC (by rw [toNat_toWord]; omega)

theorem of_execDrw (h : s.Inv) (hpc : s.pc.toNat ≤ 0xFFE) {x y : Reg} {n : Nibble} (he : execDrw x y n s = .next t) :
    t.Inv := by
  unfold execDrw at he
  split at he <;> cases he
  exact ((h.redraw _).writeV VF _).advance hpc

theorem of_execSkp (h : s.Inv) (hpc : s.pc.toNat ≤ 0xFFE) {x : Reg} (he : execSkp x s = .next t) : t.Inv := by
  rcases execSkp_cases x s with ⟨-, hr⟩ | ⟨hx, hr⟩ <;> rw [hr] at he <;> cases he
  exact h.skipIf hpc _

theorem of_execSknp (h : s.Inv) (hpc : s.pc.toNat ≤ 0xFFE) {x : Reg} (he : execSknp x s = .next t) : t.Inv := by
  rcases execSknp_cases x s with ⟨-, hr⟩ | ⟨hx, hr⟩ <;> rw [hr] at he <;> cases he
  exact h.skipIf hpc _

theorem of_execLdVxK (h : s.Inv) (hpc : s.pc.toNat ≤ 0xFFE) {x : Reg} (he : execLdVxK x s = .next t) : t.Inv := by
  rcases execLdVxK_cases x s with ⟨-, hr⟩ | ⟨k, -, -, hr⟩ <;> rw [hr] at he <;> cases he
  · exact h
  · exact (h.writeV x _).advance hpc

theorem of_execLdB (h : s.Inv) (hpc : s.pc.toNat ≤ 0xFFE) {x : Reg} (he : execLdB x s = .next t) : t.Inv := by
  unfold execLdB at he
  split at he <;> cases he
  next hc => exact (h.storeBytes_of_checkWrites hc).advance (by simpa using hpc)

theorem of_execStoreRegs (h : s.Inv) (hpc : s.pc.toNat ≤ 0xFFE) {x : Reg} (he : execStoreRegs x s = .next t) : t.Inv := by
  unfold execStoreRegs at he
  split at he <;> cases he
  next hc => exact (h.storeBytes_of_checkWrites (by rwa [length_regsUpTo])).advance (by simpa using hpc)

theorem of_execLoadRegs (h : s.Inv) (hpc : s.pc.toNat ≤ 0xFFE) {x : Reg} (he : execLoadRegs x s = .next t) : t.Inv := by
  unfold execLoadRegs at he
  split at he <;> cases he
  exact (h.loadV 0 _).advance (by rw [State.loadV_eq]; exact hpc)

/-- Every instruction at an address it could be fetched from keeps the invariant. -/
theorem of_exec (h : s.Inv) (hpc : s.pc.toNat ≤ 0xFFE) {i : Instr} (he : exec i s = .next t) : t.Inv := by
  cases i with
  | ret => exact h.of_execRet he
  | call nnn => exact h.of_execCall hpc he
  | drw x y n => exact h.of_execDrw hpc he
  | skp x => exact h.of_execSkp hpc he
  | sknp x => exact h.of_execSknp hpc he
  | ldVxK x => exact h.of_execLdVxK hpc he
  | ldB x => exact h.of_execLdB hpc he
  | storeRegs x => exact h.of_execStoreRegs hpc he
  | loadRegs x => exact h.of_execLoadRegs hpc he
  | jp nnn => cases he; exact h.setPC (by rw [addrOperand, toNat_toWord]; omega)
  | jpV0 nnn => cases he; exact h.setPC (by rw [toNat_offsetTarget]; omega)
  | seByte x _ | sneByte x _ | seReg x _ | sneReg x _ => cases he; exact h.skipIf hpc _
  | ldByte x _ | addByte x _ | ldReg x _ | orReg x _ | andReg x _ | xorReg x _ | ldVxDt x =>
    cases he; exact (h.writeV x _).advance hpc
  | addReg x _ | sub x _ | shr x _ | subn x _ | shl x _ => cases he; exact (h.writeVFlag x _ _).advance hpc
  | rnd x kk => cases he; exact (h.writeV x _).advanceRng.advance hpc
  | cls => cases he; exact (h.redraw _).advance hpc
  | ldI _ | ldF _ => cases he; exact (h.setI _).advance hpc
  | addI x => cases he; exact ((h.setI _).writeV VF _).advance hpc
  | ldDtVx x => cases he; exact (h.setDT _).advance hpc
  | ldStVx x => cases he; exact (h.setST _).advance hpc

/-! ## The invariant and the operations of the host (R300) -/

/-- The state after a step, whatever its outcome. -/
theorem stepOutcome (h : s.Inv) : (stepOutcome s).1.Inv := by
  rcases stepOutcome_cases s with ⟨-, ho⟩ | ⟨hpc, -, ho⟩ | ⟨i, hpc, -, ⟨t, he, ho⟩ | ⟨f, -, ho⟩ | ⟨r, -, ho⟩⟩ <;> rw [ho]
  · exact h
  · exact h.advance hpc
  · exact h.of_exec hpc he
  · exact h
  · exact h

/-- A load stores inside the space and above the font, or nothing (R334). -/
theorem load (h : s.Inv) (bytes : List Byte) : (load bytes s).1.Inv := by
  unfold Machine.load
  split
  · exact h
  · next hlen => exact h.storeBytes (by simp only [programStart, romMax] at hlen ⊢; omega) (fun _ => by decide)

theorem notifyKey (h : s.Inv) (code : Int) (b : Bool) : (notifyKey code b s).1.Inv := by
  unfold Machine.notifyKey
  split
  · exact h.setKey _ b
  · exact h

theorem perform (h : s.Inv) (op : HostOp) : (perform op s).1.Inv := by
  cases op with
  | load bytes => exact h.load bytes
  | step => exact h.stepOutcome
  | tickTimers => exact h.congr rfl rfl rfl rfl rfl
  | pressKey code => exact h.notifyKey code true
  | releaseKey code => exact h.notifyKey code false
  | clearDrawFlag => exact h.congr rfl rfl rfl rfl rfl
  | pixel index => exact h
  | drawFlag => exact h
  | soundTimer => exact h

theorem performAll (h : s.Inv) (ops : List HostOp) : (performAll ops s).1.Inv := by
  induction ops generalizing s with
  | nil => exact h
  | cons op rest ih => exact ih (h.perform op)

end State.Inv

/-- Settles O11: an executed step fetched below 0xFFF, so PC, the entry a call pushes and the target of a return stay in
their bounds; the checks keep stores off the protected font. -/
theorem stepKeepsTheInvariant : Obligations.StepKeepsTheInvariant := by
  intro s t h hs
  rcases step_cases hs with ⟨hpc, -, rfl⟩ | ⟨i, hpc, -, he⟩
  · exact h.advance hpc
  · exact h.of_exec hpc he

/-- Settles O59, by cases on the operation. -/
theorem hostOperationsKeepTheInvariant : Obligations.HostOperationsKeepTheInvariant := fun op _ h => h.perform op

/-- Settles O12, by induction over the operations of the run. -/
theorem reachableStatesMeetTheInvariant : Obligations.ReachableStatesMeetTheInvariant := by
  rintro _ ⟨c, seed, ops, rfl⟩
  exact (constructionMeetsTheInvariant c seed).performAll ops

/-! ## What an instruction depends on (R28 to R32) -/

/-- The pieces of state that few instructions read or write: ST, the framebuffer, the keypad, drawFlag, the random source. -/
structure Devices where
  st : Byte
  fb : Framebuffer
  key : Vector Bool 16
  drawFlag : Bool
  rng : Rng

/-- What 00E0 and Dxyn write (R29, R30). -/
def Devices.redraw (d : Devices) (fb : Framebuffer) : Devices := { d with fb := fb, drawFlag := true }

/-- The devices of a state. -/
def State.devices (s : State) : Devices := ⟨s.st, s.fb, s.key, s.drawFlag, s.rng⟩

/-- The state with other devices. -/
def State.withDevices (s : State) (d : Devices) : State :=
  { s with st := d.st, fb := d.fb, key := d.key, drawFlag := d.drawFlag, rng := d.rng }

/-- The state with its devices changed by `f`. -/
def State.mapDevices (f : Devices → Devices) (s : State) : State := s.withDevices (f s.devices)

/-- The instruction cannot tell a change `f` of the devices: `f` keeps what the instruction reads of them and commutes
with what it writes to them (the readers and writers of R28 to R32). -/
def Ignores (f : Devices → Devices) : Instr → Prop
  | .cls => ∀ d fb, f (d.redraw fb) = (f d).redraw fb
  | .drw _ _ _ => (∀ d, (f d).fb = d.fb) ∧ ∀ d fb, f (d.redraw fb) = (f d).redraw fb
  | .rnd _ _ => (∀ d, (f d).rng = d.rng) ∧ ∀ d g, f { d with rng := g } = { f d with rng := g }
  | .skp _ | .sknp _ | .ldVxK _ => ∀ d, (f d).key = d.key
  | .ldStVx _ => ∀ d b, f { d with st := b } = { f d with st := b }
  | _ => True

section mapDevices
variable (f : Devices → Devices) (s : State)

@[simp] theorem State.mapDevices_cfg : (s.mapDevices f).cfg = s.cfg := rfl
@[simp] theorem State.mapDevices_pc : (s.mapDevices f).pc = s.pc := rfl
@[simp] theorem State.mapDevices_fb : (s.mapDevices f).fb = (f s.devices).fb := rfl
@[simp] theorem State.mapDevices_rng : (s.mapDevices f).rng = (f s.devices).rng := rfl
@[simp] theorem State.mapDevices_base : (s.mapDevices f).base = s.base := rfl
@[simp] theorem State.mapDevices_readV (r : Reg) : (s.mapDevices f).readV r = s.readV r := rfl
@[simp] theorem State.mapDevices_regsUpTo (x : Reg) : (s.mapDevices f).regsUpTo x = s.regsUpTo x := rfl
@[simp] theorem State.mapDevices_readBytes (a n : Nat) : (s.mapDevices f).readBytes a n = s.readBytes a n := rfl
@[simp] theorem keyOperand_mapDevices (x : Reg) : keyOperand (s.mapDevices f) x = keyOperand s x := rfl

theorem State.mapDevices_skipIf (c : Bool) : (s.mapDevices f).skipIf c = (s.skipIf c).mapDevices f := by
  cases c <;> rfl

theorem State.mapDevices_storeBytes (a : Nat) (bs : List Byte) :
    (s.mapDevices f).storeBytes a bs = (s.storeBytes a bs).mapDevices f := by
  induction bs generalizing s a with
  | nil => rfl
  | cons b rest ih => exact ih (s.setByte a b) (a + 1)

theorem State.mapDevices_loadV (r : Nat) (bs : List Byte) :
    (s.mapDevices f).loadV r bs = (s.loadV r bs).mapDevices f := by
  induction bs generalizing s r with
  | nil => rfl
  | cons b rest ih =>
    rw [State.loadV, State.loadV]
    split
    · exact ih (s.writeV _ b) (r + 1)
    · exact ih s (r + 1)

theorem State.mapDevices_push? (w : Word) : (s.mapDevices f).push? w = (s.push? w).map (State.mapDevices f) := by
  rw [State.push?, State.push?, apply_dite (Option.map _)]; rfl

theorem State.mapDevices_pop? : (s.mapDevices f).pop? = s.pop?.map (Prod.map id (State.mapDevices f)) := by
  rw [State.pop?, State.pop?, apply_dite (Option.map _)]; rfl

theorem State.mapDevices_pressed (h : ∀ d, (f d).key = d.key) : (s.mapDevices f).pressed = s.pressed :=
  funext fun k => congrArg (·[k.val]) (h s.devices)

theorem State.mapDevices_drawnByte (h : ∀ d, (f d).rng = d.rng) : (s.mapDevices f).drawnByte = s.drawnByte :=
  congrArg (fun g : Rng => Config.drawByte g.seed g.draws) (h s.devices)

theorem State.mapDevices_advanceRng (hread : ∀ d, (f d).rng = d.rng)
    (hwrite : ∀ d g, f { d with rng := g } = { f d with rng := g }) :
    (s.mapDevices f).advanceRng = s.advanceRng.mapDevices f := by
  have hdevices : f s.advanceRng.devices = { f s.devices with rng := (s.mapDevices f).advanceRng.rng } := by
    rw [State.advanceRng_rng, State.mapDevices_rng, hread]
    exact hwrite s.devices _
  exact congrArg s.withDevices hdevices.symm

theorem State.mapDevices_setST (h : ∀ d b, f { d with st := b } = { f d with st := b }) (b : Byte) :
    (s.mapDevices f).setST b = (s.setST b).mapDevices f :=
  congrArg s.withDevices (h s.devices b).symm

theorem State.mapDevices_redraw (h : ∀ d fb, f (d.redraw fb) = (f d).redraw fb) (fb : Framebuffer) :
    (s.mapDevices f).redraw fb = (s.redraw fb).mapDevices f :=
  congrArg s.withDevices (h s.devices fb).symm

end mapDevices

/-- An instruction that cannot tell a change of the devices gives the same outcome after it, with the change carried
along. -/
theorem exec_mapDevices (f : Devices → Devices) {i : Instr} (h : Ignores f i) (s : State) :
    exec i (s.mapDevices f) = mapNext (State.mapDevices f) (exec i s) := by
  cases i with
  | cls => exact congrArg (fun t => Host.Outcome.next t.advance) (s.mapDevices_redraw f h _)
  | ldStVx x => exact congrArg (fun t => Host.Outcome.next t.advance) (s.mapDevices_setST f h _)
  | drw x y n =>
    obtain ⟨hread, hwrite⟩ := h
    simp only [exec, execDrw, State.mapDevices_base, State.mapDevices_readV, State.mapDevices_readBytes,
      State.mapDevices_fb, hread, State.mapDevices_redraw f s hwrite]
    cases checkReads s.base n.toNat <;> rfl
  | rnd x kk =>
    obtain ⟨hread, hwrite⟩ := h
    simp only [exec, execRnd, State.mapDevices_drawnByte f s hread]
    exact congrArg (fun t => Host.Outcome.next t.advance) ((s.writeV x _).mapDevices_advanceRng f hread hwrite)
  | skp x =>
    simp only [exec, execSkp, keyOperand_mapDevices, State.mapDevices_pressed f s h, State.mapDevices_skipIf]
    cases keyOperand s x <;> rfl
  | sknp x =>
    simp only [exec, execSknp, keyOperand_mapDevices, State.mapDevices_pressed f s h, State.mapDevices_skipIf]
    cases keyOperand s x <;> rfl
  | ldVxK x =>
    simp only [exec, execLdVxK, State.leastPressed, State.mapDevices_pressed f s h]
    cases (List.finRange 16).find? s.pressed <;> rfl
  | ret =>
    simp only [exec, execRet, State.mapDevices_pop?]
    cases s.pop? <;> rfl
  | call nnn =>
    simp only [exec, execCall, State.mapDevices_pc, State.mapDevices_push?]
    cases s.push? s.pc <;> rfl
  | ldB x =>
    simp only [exec, execLdB, State.mapDevices_storeBytes, State.mapDevices_cfg, State.mapDevices_base,
      State.mapDevices_readV]
    cases checkWrites s.cfg s.base 3 <;> rfl
  | storeRegs x =>
    simp only [exec, execStoreRegs, State.mapDevices_storeBytes, State.mapDevices_cfg, State.mapDevices_base,
      State.mapDevices_regsUpTo]
    cases checkWrites s.cfg s.base (regCount x) <;> rfl
  | loadRegs x =>
    simp only [exec, execLoadRegs, State.mapDevices_loadV, State.mapDevices_base, State.mapDevices_readBytes]
    cases checkReads s.base (regCount x) <;> rfl
  | seByte _ _ | sneByte _ _ | seReg _ _ | sneReg _ _ => exact congrArg Host.Outcome.next (s.mapDevices_skipIf f _)
  | jp _ | jpV0 _ | ldByte _ _ | addByte _ _ | ldReg _ _ | orReg _ _ | andReg _ _ | xorReg _ _ | addReg _ _ => rfl
  | sub _ _ | shr _ _ | subn _ _ | shl _ _ | ldI _ | ldVxDt _ | ldDtVx _ | addI _ | ldF _ => rfl

/-- Only Cxkk can tell a change of the random source (R32). -/
theorem ignores_rng {i : Instr} (g : Rng) (hrnd : ∀ x kk, i ≠ .rnd x kk) : Ignores (fun d => { d with rng := g }) i := by
  cases i
  case rnd x kk => exact absurd rfl (hrnd x kk)
  all_goals simp [Ignores, Devices.redraw]

/-- Only Ex9E, ExA1 and Fx0A can tell a change of the keypad (R31). -/
theorem ignores_key {i : Instr} (k : Vector Bool 16) (hkey : ∀ x, i ≠ .skp x ∧ i ≠ .sknp x ∧ i ≠ .ldVxK x) :
    Ignores (fun d => { d with key := k }) i := by
  cases i
  case skp x => exact absurd rfl (hkey x).1
  case sknp x => exact absurd rfl (hkey x).2.1
  case ldVxK x => exact absurd rfl (hkey x).2.2
  all_goals simp [Ignores, Devices.redraw]

/-- Only Fx18 can tell a change of ST, by overwriting it (R28). -/
theorem ignores_st {i : Instr} (b : Byte) (hst : ∀ x, i ≠ .ldStVx x) : Ignores (fun d => { d with st := b }) i := by
  cases i
  case ldStVx x => exact absurd rfl (hst x)
  all_goals simp [Ignores, Devices.redraw]

/-- Only 00E0 and Dxyn can tell a change of the framebuffer and of drawFlag (R29, R30). -/
theorem ignores_screen {i : Instr} (g : Framebuffer → Framebuffer) (c : Bool → Bool) (hcls : i ≠ .cls)
    (hdrw : ∀ x y n, i ≠ .drw x y n) : Ignores (fun d => { d with fb := g d.fb, drawFlag := c d.drawFlag }) i := by
  cases i
  case cls => exact absurd rfl hcls
  case drw x y n => exact absurd rfl (hdrw x y n)
  all_goals simp [Ignores]

/-- Dxyn sets drawFlag whatever it held (R233). -/
theorem execDrw_drawFlag (x y : Reg) (n : Nibble) (s : State) (b : Bool) :
    execDrw x y n { s with drawFlag := b } = execDrw x y n s := by
  have hbase : State.base { s with drawFlag := b } = s.base := rfl
  simp only [execDrw, hbase]
  cases checkReads s.base n.toNat <;> rfl

/-- Settles O16: a new random source is a change of the devices that only Cxkk can tell. -/
theorem randomSourceIsReadByRndAlone : Obligations.RandomSourceIsReadByRndAlone :=
  fun _ s g hrnd => exec_mapDevices _ (ignores_rng g hrnd) s

/-- Settles O17: a new keypad is a change of the devices that only Ex9E, ExA1 and Fx0A can tell. -/
theorem keypadIsReadByThreeInstructions : Obligations.KeypadIsReadByThreeInstructions :=
  fun _ s k hkey => exec_mapDevices _ (ignores_key k hkey) s

/-- Settles O18: the instructions that do not write the field carry it along, and those that do overwrite it. -/
theorem soundAndScreenAreOutputs : Obligations.SoundAndScreenAreOutputs := by
  intro i s
  refine ⟨fun b => ⟨?_, fun hst => exec_mapDevices _ (ignores_st b hst) s⟩,
    fun b => ⟨?_, fun hcls hdrw => exec_mapDevices _ (ignores_screen id (fun _ => b) hcls hdrw) s⟩,
    fun fb => ⟨?_, fun hcls hdrw => exec_mapDevices _ (ignores_screen (fun _ => fb) id hcls hdrw) s⟩⟩
  · rintro ⟨x, rfl⟩
    rfl
  · rintro (rfl | ⟨x, y, n, rfl⟩)
    · rfl
    · exact execDrw_drawFlag x y n s b
  · rintro rfl
    rfl

end Sys2Proof.Machine
end

section
/-! The family of 20_memory.md: the faults of the four instructions that access memory through I. -/

namespace Sys2Proof.Machine

variable {s : State} {c : Raise}

/-! ## A check that raises ends the instruction with the condition it raises (R64, R131) -/

theorem execDrw_of_check {x y : Reg} {n : Nibble} (h : checkReads s.base n.toNat = some c) :
    execDrw x y n s = .fault (c.at s.pc) := by
  simp only [execDrw, h, raise_eq]

theorem execLdB_of_check {x : Reg} (h : checkWrites s.cfg s.base 3 = some c) : execLdB x s = .fault (c.at s.pc) := by
  simp only [execLdB, h, raise_eq]

theorem execStoreRegs_of_check {x : Reg} (h : checkWrites s.cfg s.base (regCount x) = some c) :
    execStoreRegs x s = .fault (c.at s.pc) := by
  simp only [execStoreRegs, h, raise_eq]

theorem execLoadRegs_of_check {x : Reg} (h : checkReads s.base (regCount x) = some c) :
    execLoadRegs x s = .fault (c.at s.pc) := by
  simp only [execLoadRegs, h, raise_eq]

theorem regCount_ne_zero (x : Reg) : regCount x ≠ 0 := Nat.succ_ne_zero _

/-- Settles O45: each instruction's check leaves the space, and a check raises at the lowest address outside it. Fx33 and
Fx55 store at most 16 bytes, so a store that leaves the space has not begun in the font. -/
theorem accessAboveTheTopFails : Obligations.AccessAboveTheTopFails := by
  intro x y n s
  refine ⟨fun hn htop => ?_, fun htop => ?_, fun htop => ?_⟩
  · have hcount : n.toNat ≠ 0 := fun h => hn (BitVec.eq_of_toNat_eq h)
    exact execDrw_of_check (checkReads_eq_some hcount (by rw [State.base]; omega))
  · exact execLdB_of_check (checkWrites_eq_range (by decide) (by rw [State.base]; omega) (by decide))
  · have hspace : 4096 < s.base + regCount x := by rw [State.base, regCount]; omega
    exact ⟨execStoreRegs_of_check (checkWrites_eq_range (regCount_ne_zero x) hspace x.isLt),
      execLoadRegs_of_check (checkReads_eq_some (regCount_ne_zero x) hspace)⟩

/-- Settles O46: a store that begins in the protected font raises at its first address. -/
theorem fontStoreFails : Obligations.FontStoreFails := fun x _ hprotect hfont =>
  ⟨execLdB_of_check (checkWrites_eq_font (by decide) hprotect hfont),
    execStoreRegs_of_check (checkWrites_eq_font (regCount_ne_zero x) hprotect hfont)⟩

end Sys2Proof.Machine
end

section
/-! The family of 30_encoding.md: decode and encode undo each other, the rows of R95 are disjoint and are exactly the words
that decode, and the register skips. -/

namespace Sys2Proof

variable {c : Config} {w : Word} {i : Instr}

/-! ## Decoding by the major opcode of a format (R92, R94) -/

section formats
variable (c : Config) (x y : Reg) (kk : Byte) (n : Nibble)

theorem decode_wordXYN_5 :
    decode c (wordXYN 0x5#4 x y n) = if n = 0x0#4 then .instr (.seReg x y) else .unmapped := by simp [decode]

theorem decode_wordXYN_8 : decode c (wordXYN 0x8#4 x y n) = decode8 x y n := by simp [decode]

theorem decode_wordXYN_9 :
    decode c (wordXYN 0x9#4 x y n) = if n = 0x0#4 then .instr (.sneReg x y) else .unmapped := by simp [decode]

theorem decode_wordXKK_E : decode c (wordXKK 0xE#4 x kk) = decodeE x kk := by simp [decode]

theorem decode_wordXKK_F : decode c (wordXKK 0xF#4 x kk) = decodeF x kk := by simp [decode]

end formats

/-- The decoder gives a well-formed instruction back from its word: the fields of a built word are the operands, and the fixed
bits select the arm. -/
theorem decode_encode (h : i.wellFormed c = true) : decode c (encode i) = .instr i := by
  cases i with
  | cls | ret => rfl
  | jp _ | call _ | seByte _ _ | sneByte _ _ | ldByte _ _ | addByte _ _ | rnd _ _ | drw _ _ _ => simp [encode, decode]
  | ldI _ | jpV0 _ =>
    have hinclude : c.includeAnnnBnnn = true := h
    simp [encode, decode, hinclude]
  | seReg x y => exact decode_wordXYN_5 c x y 0
  | sneReg x y => exact decode_wordXYN_9 c x y 0
  | ldReg x y | orReg x y | andReg x y | xorReg x y | addReg x y | sub x y | shr x y | subn x y | shl x y =>
    exact decode_wordXYN_8 c x y _
  | skp x | sknp x => exact decode_wordXKK_E c x _
  | ldVxDt x | ldVxK x | ldDtVx x | ldStVx x | addI x | ldF x | ldB x | storeRegs x | loadRegs x =>
    exact decode_wordXKK_F c x _

/-- Settles O1, by cases on the instruction, grouped by major opcode. -/
theorem decodeOfEncodeIsTheInstruction : Obligations.DecodeOfEncodeIsTheInstruction := fun _ _ h => decode_encode h

/-! ## A word that decodes is the word of its instruction (R94, R95) -/

section rebuild
variable {op : Nibble} (h : (fieldOp w).toNat = op.toNat)
include h

theorem wordNNN_of_fieldOp : wordNNN op (fieldNNN w) = w := by
  rw [← BitVec.eq_of_toNat_eq h, wordNNN_fields]

theorem wordXKK_of_fieldOp : wordXKK op (fieldX w) (fieldKK w) = w := by
  rw [← BitVec.eq_of_toNat_eq h, wordXKK_fields]

theorem wordXYN_of_fieldOp : wordXYN op (fieldX w) (fieldY w) (fieldN w) = w := by
  rw [← BitVec.eq_of_toNat_eq h, wordXYN_fields]

theorem wordXYN_of_fieldN {n : Nibble} (hn : fieldN w = n) : wordXYN op (fieldX w) (fieldY w) n = w := by
  rw [← hn, wordXYN_of_fieldOp h]

end rebuild

theorem encode_of_decode0 (h : decode0 w = .instr i) : i.wellFormed c = true ∧ encode i = w := by
  unfold decode0 at h
  split_ifs at h with hcls hret <;> cases h
  · exact ⟨rfl, hcls.symm⟩
  · exact ⟨rfl, hret.symm⟩

theorem encode_of_decode8 {x y : Reg} {n : Nibble} (h : decode8 x y n = .instr i) :
    i.wellFormed c = true ∧ encode i = wordXYN 0x8#4 x y n := by
  unfold decode8 at h
  split at h <;> cases h
  all_goals
    next hn => exact ⟨rfl, congrArg (wordXYN 0x8#4 x y) (BitVec.eq_of_toNat_eq hn.symm)⟩

theorem encode_of_decodeE {x : Reg} {kk : Byte} (h : decodeE x kk = .instr i) :
    i.wellFormed c = true ∧ encode i = wordXKK 0xE#4 x kk := by
  unfold decodeE at h
  split_ifs at h with hkk hkk <;> cases h <;> exact ⟨rfl, by rw [hkk]; rfl⟩

theorem encode_of_decodeF {x : Reg} {kk : Byte} (h : decodeF x kk = .instr i) :
    i.wellFormed c = true ∧ encode i = wordXKK 0xF#4 x kk := by
  unfold decodeF at h
  split_ifs at h with hkk hkk hkk hkk hkk hkk hkk hkk hkk <;> cases h <;> exact ⟨rfl, by rw [hkk]; rfl⟩

/-- Each arm of the decoder takes its operands from the fields of the word and answers only the fixed bits of its instruction,
so the word is rebuilt from them. -/
theorem encode_of_decode (h : decode c w = .instr i) : i.wellFormed c = true ∧ encode i = w := by
  unfold decode at h
  split at h
  next => exact encode_of_decode0 h
  next hop => cases h; exact ⟨rfl, wordNNN_of_fieldOp hop⟩
  next hop => cases h; exact ⟨rfl, wordNNN_of_fieldOp hop⟩
  next hop => cases h; exact ⟨rfl, wordXKK_of_fieldOp hop⟩
  next hop => cases h; exact ⟨rfl, wordXKK_of_fieldOp hop⟩
  next hop => split_ifs at h with hn; cases h; exact ⟨rfl, wordXYN_of_fieldN hop hn⟩
  next hop => cases h; exact ⟨rfl, wordXKK_of_fieldOp hop⟩
  next hop => cases h; exact ⟨rfl, wordXKK_of_fieldOp hop⟩
  next hop => rw [← wordXYN_of_fieldOp (op := 0x8#4) hop]; exact encode_of_decode8 h
  next hop => split_ifs at h with hn; cases h; exact ⟨rfl, wordXYN_of_fieldN hop hn⟩
  next hop => split_ifs at h with hinclude; cases h; exact ⟨hinclude, wordNNN_of_fieldOp hop⟩
  next hop => split_ifs at h with hinclude; cases h; exact ⟨hinclude, wordNNN_of_fieldOp hop⟩
  next hop => cases h; exact ⟨rfl, wordXKK_of_fieldOp hop⟩
  next hop => cases h; exact ⟨rfl, wordXYN_of_fieldOp hop⟩
  next hop => rw [← wordXKK_of_fieldOp (op := 0xE#4) hop]; exact encode_of_decodeE h
  next hop => rw [← wordXKK_of_fieldOp (op := 0xF#4) hop]; exact encode_of_decodeF h
  next => cases h

/-- An instruction's word has the fixed bits of its row. -/
theorem row_matches_encode (i : Instr) : i.row.matches (encode i) = true := by
  cases i
  case cls | ret => rfl
  case jp | call | ldI | jpV0 => exact Laws.EncodeRow.matches_NNN _ _
  case seByte | sneByte | ldByte | addByte | rnd => exact Laws.EncodeRow.matches_XKK _ _ _
  case drw => exact Laws.EncodeRow.matches_XYN _ _ _ _
  case skp | sknp | ldVxDt | ldVxK | ldDtVx | ldStVx | addI | ldF | ldB | storeRegs | loadRegs =>
    exact Laws.EncodeRow.matches_XS _ _ _
  all_goals exact Laws.EncodeRow.matches_XYS _ _ _ _

/-- Settles O2: the fields of a decoded word and the arm that decoded it give the word back. -/
theorem decodedWordIsTheEncoding : Obligations.DecodedWordIsTheEncoding := by
  intro c w i h
  obtain ⟨hwf, rfl⟩ := encode_of_decode h
  exact ⟨hwf, rfl, row_matches_encode i⟩

/-! ## The rows (R95) -/

theorem OpcodeRow.matches_iff {r : OpcodeRow} : r.matches w = true ↔ w &&& r.mask = r.bits := beq_iff_eq

/-- The rows fix different values for some bit that both masks select. -/
abbrev OpcodeRow.Differ (r q : OpcodeRow) : Prop := r.bits &&& q.mask ≠ q.bits &&& r.mask

theorem OpcodeRow.Differ.not_both_match {r q : OpcodeRow} (h : r.Differ q) (w : Word) :
    ¬(r.matches w = true ∧ q.matches w = true) := by
  rw [OpcodeRow.matches_iff, OpcodeRow.matches_iff]
  rintro ⟨hr, hq⟩
  apply h
  rw [← hr, ← hq, BitVec.and_assoc, BitVec.and_assoc, BitVec.and_comm r.mask]

/-- Settles O3: every two rows differ in a bit that both fix. -/
theorem noTwoRowsMatchOneWord : Obligations.NoTwoRowsMatchOneWord := by
  have hdiffer : opcodeRows.Pairwise OpcodeRow.Differ := by decide
  exact ⟨rfl, hdiffer.imp fun h => h.not_both_match⟩

/-- The rows in force are those of the well-formed instructions. -/
theorem row_mem_opcodeRows : i.row ∈ c.opcodeRows ↔ i.wellFormed c = true := by
  have hmem : i.row ∈ opcodeRows := by cases i <;> simp [opcodeRows, Instr.row]
  rw [Config.opcodeRows, List.mem_filter, and_iff_right hmem, Instr.wellFormed, Bool.or_comm]
  cases i <;> rfl

theorem exists_row_of_mem {r : OpcodeRow} (h : r ∈ c.opcodeRows) : ∃ i : Instr, i.wellFormed c = true ∧ i.row = r := by
  have hr : r ∈ opcodeRows := List.mem_of_mem_filter h
  rw [opcodeRows, ← List.map_append, ← List.map_append, ← List.map_append] at hr
  obtain ⟨i, -, rfl⟩ := List.mem_map.1 hr
  exact ⟨i, row_mem_opcodeRows.1 h, rfl⟩

/-! ## A word that matches a row in force decodes (R94) -/

section fixed
variable {r : OpcodeRow} (h : r.matches w = true)
include h

/-- A field that the mask covers is fixed by the row. -/
theorem field_of_matches {start len : Nat} (hmask : r.mask.extractLsb' start len = BitVec.allOnes len) :
    w.extractLsb' start len = r.bits.extractLsb' start len := by
  rw [← OpcodeRow.matches_iff.1 h, BitVec.extractLsb'_and, hmask, BitVec.and_allOnes]

theorem eq_bits_of_matches (hmask : r.mask = BitVec.allOnes 16) : w = r.bits := by
  rw [← OpcodeRow.matches_iff.1 h, hmask, BitVec.and_allOnes]

end fixed

/-- The row fixes the major opcode, and with it the arm of the decoder; where the arm looks at a minor code, the row fixes that
too. -/
theorem exists_decode_of_row_matches (hwf : i.wellFormed c = true) (h : i.row.matches w = true) :
    ∃ j, decode c w = .instr j := by
  have hmask : fieldOp i.row.mask = 0xF#4 := by cases i <;> simp only [Instr.row] <;> rfl
  have hop : fieldOp w = fieldOp i.row.bits := field_of_matches h hmask
  rw [decode]
  cases i <;> simp only [Instr.row] at h hop <;> rw [hop]
  case cls | ret =>
    rw [eq_bits_of_matches h rfl]
    exact ⟨_, rfl⟩
  case ldI | jpV0 =>
    have hinclude : c.includeAnnnBnnn = true := hwf
    rw [hinclude]
    exact ⟨_, rfl⟩
  case seReg | sneReg | ldReg | orReg | andReg | xorReg | addReg | sub | shr | subn | shl =>
    have hn : fieldN w = fieldN _ := field_of_matches h rfl
    rw [hn]
    exact ⟨_, rfl⟩
  case skp | sknp | ldVxDt | ldVxK | ldDtVx | ldStVx | addI | ldF | ldB | storeRegs | loadRegs =>
    have hkk : fieldKK w = fieldKK _ := field_of_matches h rfl
    rw [hkk]
    exact ⟨_, rfl⟩
  all_goals exact ⟨_, rfl⟩

/-- Settles O4: a decoded word matches the row of its instruction, which is in force, and a word that matches a row in force
decodes. -/
theorem unmappedMeansNoRowMatches : Obligations.UnmappedMeansNoRowMatches := by
  intro c w
  constructor
  · intro hunmapped r hr
    obtain ⟨i, hwf, rfl⟩ := exists_row_of_mem hr
    by_contra hmatch
    obtain ⟨j, hj⟩ := exists_decode_of_row_matches hwf (Bool.of_not_eq_false hmatch)
    rw [hunmapped] at hj
    cases hj
  · intro hrows
    rcases hd : decode c w with i | _
    · obtain ⟨hwf, -, hmatch⟩ := decodedWordIsTheEncoding c w i hd
      rw [hrows _ (row_mem_opcodeRows.2 hwf)] at hmatch
      cases hmatch
    · rfl

/-- Settles O5, by evaluating the decoder on each word. -/
theorem wordsOfTheVectorsDecode : Obligations.WordsOfTheVectorsDecode := by
  unfold Obligations.WordsOfTheVectorsDecode
  decide

end Sys2Proof

namespace Sys2Proof.Machine

/-! ## The register skips (R147, R148) -/

/-- A skip writes PC alone. -/
theorem onlyChanges_skipIf (s : State) (b : Bool) : OnlyChanges {} s (s.skipIf b) := by
  rw [State.skipIf_eq]
  constructor <;> intros <;> rfl

theorem toNat_pc_skipIf (s : State) (b : Bool) :
    (s.skipIf b).pc.toNat = (s.pc.toNat + if b then 4 else 2) % 65536 := by
  cases b <;> exact BitVec.toNat_add _ _

/-- Settles O30: the words decode by O1's lemma, a nonzero low nibble fails the decoder's test, and a skip writes PC alone. -/
theorem registerSkipsCompareRegisters : Obligations.RegisterSkipsCompareRegisters := by
  intro x y s
  refine ⟨fun c => ⟨decode_encode (i := .seReg x y) rfl, decode_encode (i := .sneReg x y) rfl⟩, fun c n hn => ?_,
    ⟨_, rfl, onlyChanges_skipIf s _, ?_⟩, ⟨_, rfl, onlyChanges_skipIf s _, ?_⟩⟩
  · rw [decode_wordXYN_5, decode_wordXYN_9, if_neg hn, if_neg hn]
    exact ⟨rfl, rfl⟩
  · simp [toNat_pc_skipIf]
  · simp [toNat_pc_skipIf]

end Sys2Proof.Machine
end

section
/-! The family of 40_step.md: what a step does with the word at PC, the ways it can end, what it leaves unchanged and where it
leaves PC. -/

namespace Sys2Proof.Machine

variable {s t : State} {i : Instr}

/-! ## The step in the host's outcomes, from its own -/

theorem step_of_ok (h : stepOutcome s = (t, .ok)) : step s = .next t := by simp only [step, h]

theorem step_of_unmapped {pc w : Word} (h : stepOutcome s = (t, .unmapped pc w)) : step s = .next t := by
  simp only [step, h]

theorem step_of_fail {f : Fault} (h : stepOutcome s = (t, .fail f)) : step s = .fault f := by simp only [step, h]

/-! ## The step at an instruction, at an unmapped word and at an address with no word (R121, R127, R131) -/

theorem step_of_atInstr (h : s.atInstr i) : step s = exec i s := by
  obtain ⟨hpc, hd⟩ := h
  simp only [step, stepOutcome, fetch_ok hpc, hd]
  cases exec i s <;> rfl

theorem stepOutcome_of_atInstr (h : s.atInstr i) (he : exec i s = .next t) : stepOutcome s = (t, .ok) := by
  obtain ⟨hpc, hd⟩ := h
  simp only [stepOutcome, fetch_ok hpc, hd, he]

theorem stepOutcome_of_unmapped {w : Word} (hf : fetch s = .ok w) (hd : decode s.cfg w = .unmapped) :
    stepOutcome s = (s.advance, .unmapped s.pc w) := by
  simp only [stepOutcome, hf, hd, skipUnmapped]

theorem stepOutcome_of_top (h : 0xFFE < s.pc.toNat) :
    stepOutcome s = (s, .fail (.addressOutOfRange s.pc (max s.pc.toNat 0x1000))) := by
  rcases stepOutcome_cases s with ⟨-, ho⟩ | ⟨hpc, -⟩ | ⟨_, hpc, -⟩
  · exact ho
  · omega
  · omega

/-- Settles O6: the word of the two bytes is `State.wordAt`. -/
theorem stepExecutesTheDecodedInstruction : Obligations.StepExecutesTheDecodedInstruction := by
  intro s i hpc hd
  have hat : s.atInstr i := ⟨hpc, hd⟩
  exact ⟨step_of_atInstr hat, fun _ he => stepOutcome_of_atInstr hat he⟩

/-- Settles O7: the skip is `State.advance`, which setting PC back undoes. -/
theorem unmappedWordIsSkippedAndReported : Obligations.UnmappedWordIsSkippedAndReported := by
  intro s w hf hd
  rw [stepOutcome_of_unmapped hf hd]
  exact ⟨rfl, BitVec.toNat_add s.pc 2, rfl⟩

/-- Settles O8: the lowest address of PC and PC + 1 outside the space is 0x1000 or, from there on, PC. -/
theorem fetchAboveTheTopFails : Obligations.FetchAboveTheTopFails := by
  intro s h
  have ho := stepOutcome_of_top h
  have hlow : max s.pc.toNat 0x1000 = if s.pc.toNat = 0xFFF then 0x1000 else s.pc.toNat := by
    split <;> omega
  rw [← hlow]
  exact ⟨step_of_fail ho, congrArg Prod.fst ho⟩

/-! ## How the instructions that access memory through I can end (R62 to R64) -/

/-- What Dxyn draws: its sprite over the framebuffer, with no collision yet (R233). -/
def State.drawSprite (s : State) (x y : Reg) (n : Nibble) : Canvas :=
  Canvas.drawRows (s.readV x).toNat (s.readV y).toNat 0 (s.readBytes s.base n.toNat) ⟨s.fb, false⟩

/-- A pixel under no set bit of the sprite stays as it was (R233). -/
theorem pixel_drawSprite_of_not_covers {x y : Reg} {n : Nibble} {p : Nat}
    (h : ¬spriteCovers s x y n p) : (s.drawSprite x y n).fb.pixel p = s.fb.pixel p := by
  refine Canvas.pixel_drawRows_of_clear fun j hj col hcol hbit hp => h ⟨j, col, ?_, hcol, ?_, ?_⟩
  · simpa using hj
  · rwa [getElem_readBytes] at hbit
  · rwa [Nat.zero_add] at hp

theorem execDrw_cases (x y : Reg) (n : Nibble) (s : State) :
    (∃ c, checkReads s.base n.toNat = some c ∧ execDrw x y n s = .fault (c.at s.pc)) ∨
    (checkReads s.base n.toNat = none ∧ execDrw x y n s =
      .next ((s.redraw (s.drawSprite x y n).fb).writeV VF (flagByte (s.drawSprite x y n).collision)).advance) := by
  rcases h : checkReads s.base n.toNat with _ | c
  · exact .inr ⟨rfl, by simp only [execDrw, h, State.drawSprite]⟩
  · exact .inl ⟨c, rfl, execDrw_of_check h⟩

theorem execLdB_cases (x : Reg) (s : State) :
    (∃ c, checkWrites s.cfg s.base 3 = some c ∧ execLdB x s = .fault (c.at s.pc)) ∨
    (checkWrites s.cfg s.base 3 = none ∧
      execLdB x s = .next (s.storeBytes s.base (bcdDigits (s.readV x))).advance) := by
  rcases h : checkWrites s.cfg s.base 3 with _ | c
  · exact .inr ⟨rfl, by simp only [execLdB, h]⟩
  · exact .inl ⟨c, rfl, execLdB_of_check h⟩

theorem execStoreRegs_cases (x : Reg) (s : State) :
    (∃ c, checkWrites s.cfg s.base (regCount x) = some c ∧ execStoreRegs x s = .fault (c.at s.pc)) ∨
    (checkWrites s.cfg s.base (regCount x) = none ∧
      execStoreRegs x s = .next (s.storeBytes s.base (s.regsUpTo x)).advance) := by
  rcases h : checkWrites s.cfg s.base (regCount x) with _ | c
  · exact .inr ⟨rfl, by simp only [execStoreRegs, h]⟩
  · exact .inl ⟨c, rfl, execStoreRegs_of_check h⟩

theorem execLoadRegs_cases (x : Reg) (s : State) :
    (∃ c, checkReads s.base (regCount x) = some c ∧ execLoadRegs x s = .fault (c.at s.pc)) ∨
    (checkReads s.base (regCount x) = none ∧
      execLoadRegs x s = .next (s.loadV 0 (s.readBytes s.base (regCount x))).advance) := by
  rcases h : checkReads s.base (regCount x) with _ | c
  · exact .inr ⟨rfl, by simp only [execLoadRegs, h]⟩
  · exact .inl ⟨c, rfl, execLoadRegs_of_check h⟩

/-! ## The ways a step can end (R128, R129) -/

/-- An instruction fails with its own address in the condition, or runs; none is refused. -/
theorem exec_cases (i : Instr) (s : State) :
    (∃ f, exec i s = .fault f ∧ f.pc = s.pc) ∨ ∃ t, exec i s = .next t := by
  cases i with
  | ret => exact (execRet_cases s).imp (fun ⟨_, h⟩ => ⟨_, h, rfl⟩) fun ⟨_, h⟩ => ⟨_, h⟩
  | call nnn => exact (execCall_cases nnn s).imp (fun ⟨_, h⟩ => ⟨_, h, rfl⟩) fun ⟨_, h⟩ => ⟨_, h⟩
  | skp x => exact (execSkp_cases x s).imp (fun ⟨_, h⟩ => ⟨_, h, rfl⟩) fun ⟨_, h⟩ => ⟨_, h⟩
  | sknp x => exact (execSknp_cases x s).imp (fun ⟨_, h⟩ => ⟨_, h, rfl⟩) fun ⟨_, h⟩ => ⟨_, h⟩
  | drw x y n => exact (execDrw_cases x y n s).imp (fun ⟨_, _, h⟩ => ⟨_, h, Raise.pc_at _ _⟩) fun ⟨_, h⟩ => ⟨_, h⟩
  | ldB x => exact (execLdB_cases x s).imp (fun ⟨_, _, h⟩ => ⟨_, h, Raise.pc_at _ _⟩) fun ⟨_, h⟩ => ⟨_, h⟩
  | storeRegs x =>
    exact (execStoreRegs_cases x s).imp (fun ⟨_, _, h⟩ => ⟨_, h, Raise.pc_at _ _⟩) fun ⟨_, h⟩ => ⟨_, h⟩
  | loadRegs x =>
    exact (execLoadRegs_cases x s).imp (fun ⟨_, _, h⟩ => ⟨_, h, Raise.pc_at _ _⟩) fun ⟨_, h⟩ => ⟨_, h⟩
  | ldVxK x => exact .inr ((execLdVxK_cases x s).elim (fun ⟨_, h⟩ => ⟨_, h⟩) fun ⟨_, _, _, h⟩ => ⟨_, h⟩)
  | cls | jp _ | jpV0 _ | seByte _ _ | sneByte _ _ | seReg _ _ | sneReg _ _ | rnd _ _ => exact .inr ⟨_, rfl⟩
  | ldByte _ _ | addByte _ _ | ldReg _ _ | orReg _ _ | andReg _ _ | xorReg _ _ | addReg _ _ => exact .inr ⟨_, rfl⟩
  | sub _ _ | shr _ _ | subn _ _ | shl _ _ | ldI _ | addI _ | ldF _ | ldVxDt _ | ldDtVx _ | ldStVx _ =>
    exact .inr ⟨_, rfl⟩

/-- Settles O9: the fetch fails at PC, an unmapped word is skipped, and an instruction runs or fails. -/
theorem stepRunsSkipsOrFailsCleanly : Obligations.StepRunsSkipsOrFailsCleanly := by
  intro s
  rcases stepOutcome_cases s with ⟨-, ho⟩ | ⟨-, -, ho⟩ | ⟨i, -, -, ⟨t, -, ho⟩ | ⟨f, he, ho⟩ | ⟨r, he, -⟩⟩
  · exact .inr ⟨_, step_of_fail ho, ho, rfl⟩
  · exact .inl ⟨_, step_of_unmapped ho, .inr ⟨_, ho⟩⟩
  · exact .inl ⟨t, step_of_ok ho, .inl ho⟩
  · rcases exec_cases i s with ⟨_, h, hpc⟩ | ⟨_, h⟩ <;> rw [h] at he <;> cases he
    exact .inr ⟨f, step_of_fail ho, ho, hpc⟩
  · rcases exec_cases i s with ⟨_, h, -⟩ | ⟨_, h⟩ <;> rw [h] at he <;> cases he

/-! ## Frames of the operations of the state (R130) -/

namespace OnlyChanges

variable {c : Changes}

theorem refl (c : Changes) (s : State) : OnlyChanges c s s := by constructor <;> intros <;> rfl

theorem setPC (h : OnlyChanges c s t) (w : Word) : OnlyChanges c s (t.setPC w) := { h with }

theorem advance (h : OnlyChanges c s t) : OnlyChanges c s t.advance := h.setPC _

theorem writeV (h : OnlyChanges c s t) {r : Reg} (hr : r ∈ c.v) (b : Byte) : OnlyChanges c s (t.writeV r b) :=
  { h with
    regs := fun q hq => by
      have hne : q ≠ r := ne_of_mem_of_not_mem hr hq |>.symm
      rw [State.readV_writeV, if_neg hne, h.regs q hq] }

theorem writeVFlag (h : OnlyChanges c s t) {r : Reg} (hr : r ∈ c.v) (hF : VF ∈ c.v) (b flag : Byte) :
    OnlyChanges c s (t.writeVFlag r b flag) := (h.writeV hr b).writeV hF flag

theorem setI (h : OnlyChanges c s t) (hi : c.i = true) (w : Word) : OnlyChanges c s (t.setI w) :=
  { h with index := fun hc => nomatch hi.symm.trans hc }

theorem setDT (h : OnlyChanges c s t) (hd : c.dt = true) (b : Byte) : OnlyChanges c s (t.setDT b) :=
  { h with delay := fun hc => nomatch hd.symm.trans hc }

theorem setST (h : OnlyChanges c s t) (hs : c.st = true) (b : Byte) : OnlyChanges c s (t.setST b) :=
  { h with sound := fun hc => nomatch hs.symm.trans hc }

theorem advanceRng (h : OnlyChanges c s t) (hr : c.rng = true) : OnlyChanges c s t.advanceRng :=
  { h with random := fun hc => nomatch hr.symm.trans hc }

theorem redraw (h : OnlyChanges c s t) (hd : c.drawFlag = true) {fb : Framebuffer}
    (hfb : ∀ p, ¬c.pixels p → fb.pixel p = s.fb.pixel p) : OnlyChanges c s (t.redraw fb) :=
  { h with
    screen := hfb
    dirty := fun hc => nomatch hd.symm.trans hc }

theorem loadV (h : OnlyChanges c s t) {r : Nat} {bs : List Byte}
    (hr : ∀ q : Reg, r ≤ q.val → q.val < r + bs.length → q ∈ c.v) : OnlyChanges c s (t.loadV r bs) := by
  have hregs : ∀ q, q ∉ c.v → (t.loadV r bs).readV q = s.readV q := fun q hq => by
    rw [State.readV_loadV, dif_neg (fun hb => hq (hr q hb.1 (by omega))), h.regs q hq]
  rw [State.loadV_eq] at hregs ⊢
  exact { h with regs := hregs }

theorem storeBytes (h : OnlyChanges c s t) {a : Nat} {bs : List Byte} (hm : ∀ b ∈ addrs a bs.length, b ∈ c.mem) :
    OnlyChanges c s (t.storeBytes a bs) := by
  have hbytes : ∀ b, b ∉ c.mem → (t.storeBytes a bs).byteAt b = s.byteAt b := fun b hb => by
    have hout : b < a ∨ a + bs.length ≤ b := by
      by_contra hin
      exact hb (hm b (mem_addrs.2 (by omega)))
    rw [State.byteAt_storeBytes_of_lt hout, h.bytes b hb]
  rw [State.storeBytes_eq] at hbytes ⊢
  exact { h with bytes := hbytes }

theorem setSP (h : OnlyChanges c s t) (hsp : c.sp = true) (n : Fin 17) : OnlyChanges c s { t with sp := n } :=
  { h with pointer := fun hc => nomatch hsp.symm.trans hc }

theorem setStack (h : OnlyChanges c s t) {k : Nat} (hk : k < 16) (he : k ∈ c.entries) (w : Word) :
    OnlyChanges c s { t with stack := t.stack.set k w } :=
  { h with
    stack := fun j hj => by
      have hne : k ≠ j := ne_of_mem_of_not_mem he hj
      rw [Vector.getElem?_set_ne _ hne, h.stack j hj] }

/-! ## Frames of the instructions -/

theorem of_execRet (he : execRet s = .next t) : OnlyChanges (changesOf .ret s) s t := by
  rcases execRet_cases s with ⟨-, hr⟩ | ⟨_, hr⟩ <;> rw [hr] at he <;> cases he
  exact ((refl _ s).setSP rfl _).setPC _

theorem of_execCall {nnn : Addr} (he : execCall nnn s = .next t) : OnlyChanges (changesOf (.call nnn) s) s t := by
  rcases execCall_cases nnn s with ⟨-, hr⟩ | ⟨hsp, hr⟩ <;> rw [hr] at he <;> cases he
  exact (((refl _ s).setStack hsp List.mem_cons_self _).setSP rfl _).setPC _

theorem of_execDrw {x y : Reg} {n : Nibble} (he : execDrw x y n s = .next t) :
    OnlyChanges (changesOf (.drw x y n) s) s t := by
  rcases execDrw_cases x y n s with ⟨_, -, hr⟩ | ⟨-, hr⟩ <;> rw [hr] at he <;> cases he
  exact (((refl _ s).redraw rfl fun _ hp => pixel_drawSprite_of_not_covers hp).writeV List.mem_cons_self _).advance

theorem of_execSkp {x : Reg} (he : execSkp x s = .next t) : OnlyChanges (changesOf (.skp x) s) s t := by
  rcases execSkp_cases x s with ⟨-, hr⟩ | ⟨_, hr⟩ <;> rw [hr] at he <;> cases he
  exact onlyChanges_skipIf s _

theorem of_execSknp {x : Reg} (he : execSknp x s = .next t) : OnlyChanges (changesOf (.sknp x) s) s t := by
  rcases execSknp_cases x s with ⟨-, hr⟩ | ⟨_, hr⟩ <;> rw [hr] at he <;> cases he
  exact onlyChanges_skipIf s _

theorem of_execLdVxK {x : Reg} (he : execLdVxK x s = .next t) : OnlyChanges (changesOf (.ldVxK x) s) s t := by
  rcases execLdVxK_cases x s with ⟨-, hr⟩ | ⟨k, hk, -, hr⟩ <;> rw [hr] at he <;> cases he
  · exact refl _ s
  · have hx : x ∈ (changesOf (.ldVxK x) s).v := by
      rw [changesOf, if_pos ⟨k, hk⟩]; exact List.mem_cons_self
    exact ((refl _ s).writeV hx _).advance

theorem of_execLdB {x : Reg} (he : execLdB x s = .next t) : OnlyChanges (changesOf (.ldB x) s) s t := by
  rcases execLdB_cases x s with ⟨_, -, hr⟩ | ⟨-, hr⟩ <;> rw [hr] at he <;> cases he
  exact ((refl _ s).storeBytes fun _ hb => hb).advance

theorem of_execStoreRegs {x : Reg} (he : execStoreRegs x s = .next t) :
    OnlyChanges (changesOf (.storeRegs x) s) s t := by
  rcases execStoreRegs_cases x s with ⟨_, -, hr⟩ | ⟨-, hr⟩ <;> rw [hr] at he <;> cases he
  exact ((refl _ s).storeBytes fun _ hb => by rwa [length_regsUpTo] at hb).advance

theorem of_execLoadRegs {x : Reg} (he : execLoadRegs x s = .next t) :
    OnlyChanges (changesOf (.loadRegs x) s) s t := by
  rcases execLoadRegs_cases x s with ⟨_, -, hr⟩ | ⟨-, hr⟩ <;> rw [hr] at he <;> cases he
  refine ((refl _ s).loadV fun q _ hq => ?_).advance
  rw [length_readBytes, regCount] at hq
  simp only [changesOf, List.mem_filter, List.mem_finRange, true_and, decide_eq_true_eq, Fin.le_def]
  omega

/-- An instruction writes what `changesOf` lists, and PC. -/
theorem of_exec (he : exec i s = .next t) : OnlyChanges (changesOf i s) s t := by
  cases i with
  | ret => exact of_execRet he
  | call nnn => exact of_execCall he
  | drw x y n => exact of_execDrw he
  | skp x => exact of_execSkp he
  | sknp x => exact of_execSknp he
  | ldVxK x => exact of_execLdVxK he
  | ldB x => exact of_execLdB he
  | storeRegs x => exact of_execStoreRegs he
  | loadRegs x => exact of_execLoadRegs he
  | cls => cases he; exact ((refl _ s).redraw rfl fun _ hp => absurd trivial hp).advance
  | jp _ | jpV0 _ => cases he; exact (refl _ s).setPC _
  | seByte _ _ | sneByte _ _ | seReg _ _ | sneReg _ _ => cases he; exact onlyChanges_skipIf s _
  | ldByte x _ | addByte x _ | ldReg x _ | orReg x _ | andReg x _ | xorReg x _ | ldVxDt x =>
    cases he; exact ((refl _ s).writeV List.mem_cons_self _).advance
  | addReg x _ | sub x _ | shr x _ | subn x _ | shl x _ =>
    cases he; exact ((refl _ s).writeVFlag List.mem_cons_self (List.mem_cons_of_mem x List.mem_cons_self) _ _).advance
  | rnd x kk => cases he; exact (((refl _ s).writeV List.mem_cons_self _).advanceRng rfl).advance
  | ldI _ | ldF _ => cases he; exact ((refl _ s).setI rfl _).advance
  | addI x => cases he; exact (((refl _ s).setI rfl _).writeV List.mem_cons_self _).advance
  | ldDtVx x => cases he; exact ((refl _ s).setDT rfl _).advance
  | ldStVx x => cases he; exact ((refl _ s).setST rfl _).advance

end OnlyChanges

/-- The two instructions that may write drawFlag set it (R29). -/
theorem drawFlag_of_exec (he : exec i s = .next t) (hs : s.drawFlag = true) : t.drawFlag = true := by
  have hframe := OnlyChanges.of_exec he
  cases i
  case cls => cases he; rfl
  case drw x y n =>
    rcases execDrw_cases x y n s with ⟨_, -, hr⟩ | ⟨-, hr⟩ <;> rw [exec, hr] at he <;> cases he
    rfl
  all_goals exact (hframe.dirty rfl).trans hs

/-- Settles O13, by the inversion of the step and the frame of the instruction or of the skip. -/
theorem stepChangesOnlyWhatItsRuleWrites : Obligations.StepChangesOnlyWhatItsRuleWrites := by
  intro s t h
  rcases step_cases h with ⟨-, hd, rfl⟩ | ⟨i, -, hd, he⟩
  · exact ⟨id, .inr ⟨hd, (OnlyChanges.refl {} s).advance⟩⟩
  · exact ⟨drawFlag_of_exec he, .inl ⟨i, hd, .of_exec he⟩⟩

/-! ## PC after an instruction (R123, R124, R126) -/

theorem takesSkip_skp {x : Reg} (h : (s.readV x).toNat < 16) :
    takesSkip (.skp x) s = s.pressed ⟨(s.readV x).toNat, h⟩ := by
  simp only [takesSkip, State.pressed, Vector.getElem?_eq_getElem h]
  cases s.key[(s.readV x).toNat] <;> rfl

theorem takesSkip_sknp {x : Reg} (h : (s.readV x).toNat < 16) :
    takesSkip (.sknp x) s = !s.pressed ⟨(s.readV x).toNat, h⟩ := by
  simp only [takesSkip, State.pressed, Vector.getElem?_eq_getElem h]
  cases s.key[(s.readV x).toNat] <;> rfl

theorem pc_skipIf (s : State) (b : Bool) : (s.skipIf b).pc = s.pc + if b then 4 else 2 := by
  rw [State.skipIf_eq, State.setPC_pc]

/-- An Fx0A with no key pressed changes nothing (R126). -/
theorem exec_of_waitsForKey (h : waitsForKey i s) : exec i s = .next s := by
  obtain ⟨⟨x, rfl⟩, hkeys⟩ := h
  rcases execLdVxK_cases x s with ⟨-, hr⟩ | ⟨k, hk, -⟩
  · exact hr
  · rw [hkeys k] at hk; cases hk

/-- PC after an instruction that neither sets a target nor waits. -/
theorem pc_of_exec (he : exec i s = .next t) (htarget : setsTarget i = false) (hw : ¬waitsForKey i s) :
    t.pc = s.pc + if takesSkip i s then 4 else 2 := by
  cases i with
  | ret | jp _ | call _ | jpV0 _ => cases htarget
  | seByte _ _ | sneByte _ _ | seReg _ _ | sneReg _ _ => cases he; exact pc_skipIf s _
  | skp x =>
    rcases execSkp_cases x s with ⟨-, hr⟩ | ⟨hx, hr⟩ <;> rw [exec, hr] at he <;> cases he
    rw [takesSkip_skp hx, pc_skipIf]
  | sknp x =>
    rcases execSknp_cases x s with ⟨-, hr⟩ | ⟨hx, hr⟩ <;> rw [exec, hr] at he <;> cases he
    rw [takesSkip_sknp hx, pc_skipIf]
  | ldVxK x =>
    rcases execLdVxK_cases x s with ⟨hkeys, -⟩ | ⟨_, -, -, hr⟩
    · exact absurd ⟨⟨x, rfl⟩, hkeys⟩ hw
    · rw [exec, hr] at he; cases he; rfl
  | drw x y n =>
    rcases execDrw_cases x y n s with ⟨_, -, hr⟩ | ⟨-, hr⟩ <;> rw [exec, hr] at he <;> cases he
    rfl
  | ldB x =>
    rcases execLdB_cases x s with ⟨_, -, hr⟩ | ⟨-, hr⟩ <;> rw [exec, hr] at he <;> cases he
    rw [State.advance_pc, State.storeBytes_pc]; rfl
  | storeRegs x =>
    rcases execStoreRegs_cases x s with ⟨_, -, hr⟩ | ⟨-, hr⟩ <;> rw [exec, hr] at he <;> cases he
    rw [State.advance_pc, State.storeBytes_pc]; rfl
  | loadRegs x =>
    rcases execLoadRegs_cases x s with ⟨_, -, hr⟩ | ⟨-, hr⟩ <;> rw [exec, hr] at he <;> cases he
    rw [State.advance_pc, State.loadV_eq]; rfl
  | cls | ldByte _ _ | addByte _ _ | ldReg _ _ | orReg _ _ | andReg _ _ | xorReg _ _ | rnd _ _ => cases he; rfl
  | addReg _ _ | sub _ _ | shr _ _ | subn _ _ | shl _ _ => cases he; rfl
  | ldI _ | addI _ | ldF _ | ldVxDt _ | ldDtVx _ | ldStVx _ => cases he; rfl

/-- Settles O14: PC is a word, so the sum wraps at 65536. -/
theorem otherInstructionsAdvancePCByTwo : Obligations.OtherInstructionsAdvancePCByTwo := by
  intro i s t he htarget
  constructor
  · intro hw
    rw [exec_of_waitsForKey hw] at he
    cases he
    rfl
  · intro hw
    rw [pc_of_exec he htarget hw, BitVec.toNat_add]
    cases takesSkip i s <;> rfl

/-! ## Waiting (R35, R126) -/

/-- A state that a step leaves as it is stays so for any number of steps. -/
theorem core_run_of_step_self (h : step s = .next s) (k : Nat) : Host.Core.run Sys2Proof.core k s = .next s := by
  induction k with
  | zero => rfl
  | succ k ih => rw [core_run_next h, ih]

/-- Settles O19: a waiting Fx0A ends with the state as it was. -/
theorem waitingForAKeyChangesNothing : Obligations.WaitingForAKeyChangesNothing := by
  rintro s ⟨x, hat, hkeys⟩
  have he : exec (.ldVxK x) s = .next s := exec_of_waitsForKey ⟨⟨x, rfl⟩, hkeys⟩
  exact ⟨stepOutcome_of_atInstr hat he, core_run_of_step_self ((step_of_atInstr hat).trans he)⟩

end Sys2Proof.Machine
end

section
/-! The family of 41_control_flow.md: the jumps, the call and the return, and the skips on an immediate. -/

namespace Sys2Proof.Machine

variable {s t : State}

/-! ## Jumps (R142, R144) -/

theorem exec_jp (nnn : Addr) (s : State) : exec (.jp nnn) s = .next (s.setPC nnn.toWord) := rfl

theorem exec_jpV0 (nnn : Addr) (s : State) : exec (.jpV0 nnn) s = .next (s.setPC (offsetTarget s nnn)) := rfl

theorem State.setPC_of_eq_pc {w : Word} (h : w = s.pc) : s.setPC w = s := by subst h; rfl

/-- Settles O23: a jump is one write of PC, and the write of the value PC has is none. -/
theorem jumpGoesToItsTarget : Obligations.JumpGoesToItsTarget := by
  intro nnn s
  refine ⟨fun c => decode_encode (i := .jp nnn) rfl, _, exec_jp nnn s, toNat_toWord nnn,
    OnlyChanges.of_exec (exec_jp nnn s), fun hself => State.setPC_of_eq_pc (BitVec.eq_of_toNat_eq ?_)⟩
  rw [toNat_toWord, hself]

/-- Settles O21: the step at a jump to itself ends in the state it began in, and so does every later one. -/
theorem selfJumpChangesNothing : Obligations.SelfJumpChangesNothing := by
  rintro s ⟨nnn, hat, hself⟩
  have hstep : step s = .next s := by rw [step_of_atInstr hat, exec_jp, State.setPC_of_eq_pc hself]
  exact core_run_of_step_self hstep

theorem decode_wordNNN_B (c : Config) (nnn : Addr) :
    decode c (wordNNN 0xB#4 nnn) = if c.includeAnnnBnnn then .instr (.jpV0 nnn) else .unmapped := by simp [decode]

/-- Settles O24: the target is at most 0xFFF + 0xFF, below 65536. -/
theorem offsetJumpAddsV0 : Obligations.OffsetJumpAddsV0 := fun nnn s =>
  ⟨fun c => decode_wordNNN_B c nnn, _, exec_jpV0 nnn s, toNat_offsetTarget s nnn, OnlyChanges.of_exec (exec_jpV0 nnn s)⟩

/-! ## Call and return (R141, R143) -/

theorem sp_lt_of_exec_call {nnn : Addr} (he : exec (.call nnn) s = .next t) : s.sp.val < 16 := by
  rcases execCall_cases nnn s with ⟨-, hr⟩ | ⟨hsp, -⟩
  · rw [exec, hr] at he; cases he
  · exact hsp

/-- Settles O25: the push writes the entry at SP, which is below 16. -/
theorem callPushesItsAddress : Obligations.CallPushesItsAddress := by
  intro nnn s hroom
  rcases execCall_cases nnn s with ⟨hfull, -⟩ | ⟨hsp, he⟩
  · omega
  · have hframe := OnlyChanges.of_execCall he
    exact ⟨fun c => decode_encode (i := .call nnn) rfl, _, he, Vector.getElem?_set_self hsp,
      fun j hj => hframe.stack j (mt List.mem_singleton.1 hj), rfl, toNat_toWord nnn, hframe⟩

/-- Settles O26: the pop lowers SP alone, and the entry that was on top gives PC. -/
theorem returnGoesPastTheTopEntry : Obligations.ReturnGoesPastTheTopEntry := by
  intro s hlive
  rcases execRet_cases s with ⟨hempty, -⟩ | ⟨hsp, he⟩
  · omega
  · exact ⟨fun c => decode_encode (i := .ret) rfl, _, _, Vector.getElem?_eq_getElem (by omega), he,
      BitVec.toNat_add _ _, rfl, rfl, OnlyChanges.of_execRet he⟩

/-- Settles O28: the entry the return finds on top is the one the call pushed (O25, O26). -/
theorem returnUndoesCall : Obligations.ReturnUndoesCall := by
  intro nnn s t u he hsp hstack
  obtain ⟨-, t', he', hpushed, -, htsp, -⟩ := callPushesItsAddress nnn s (sp_lt_of_exec_call he)
  obtain rfl : t' = t := Host.Outcome.next.inj (he'.symm.trans he)
  have husp : u.sp.val = s.sp.val + 1 := by rw [hsp, htsp]
  obtain ⟨-, r, e, htop, hret, hpc, hrsp, -⟩ := returnGoesPastTheTopEntry u (by omega)
  rw [husp, Nat.add_sub_cancel] at htop hrsp
  obtain rfl : e = s.pc := Option.some.inj (by rw [← htop, hstack, hpushed])
  exact ⟨r, hret, hpc, Fin.ext hrsp⟩

/-! ## The skips on an immediate (R145, R146) -/

/-- Settles O29: the two skips test opposite conditions, and a skip writes PC alone. -/
theorem byteSkipsCompareWithImmediate : Obligations.ByteSkipsCompareWithImmediate := by
  intro x kk s
  refine ⟨fun c => ⟨decode_encode (i := .seByte x kk) rfl, decode_encode (i := .sneByte x kk) rfl⟩,
    ⟨_, rfl, onlyChanges_skipIf s _, ?_⟩, ⟨_, rfl, onlyChanges_skipIf s _, ?_⟩⟩
  · simp [toNat_pc_skipIf]
  · simp [toNat_pc_skipIf]

end Sys2Proof.Machine
end

section
/-! The family of 42_alu.md: loads, arithmetic, logic, shifts and random. Each of these instructions completes with one register
written, or with one register and then the flag in VF. -/

namespace Sys2Proof.Machine

/-! ## What each instruction answers (R172 to R183) -/

section arms
variable (x y : Reg) (kk : Byte) (s : State)

theorem exec_ldByte : exec (.ldByte x kk) s = .next (s.writeV x kk).advance := rfl

theorem exec_ldReg : exec (.ldReg x y) s = .next (s.writeV x (s.readV y)).advance := rfl

theorem exec_addByte : exec (.addByte x kk) s = .next (s.writeV x (addResult (s.readV x) kk)).advance := rfl

theorem exec_orReg : exec (.orReg x y) s = .next (s.writeV x (s.readV x ||| s.readV y)).advance := rfl

theorem exec_andReg : exec (.andReg x y) s = .next (s.writeV x (s.readV x &&& s.readV y)).advance := rfl

theorem exec_xorReg : exec (.xorReg x y) s = .next (s.writeV x (s.readV x ^^^ s.readV y)).advance := rfl

theorem exec_addReg : exec (.addReg x y) s =
    .next (s.writeVFlag x (addResult (s.readV x) (s.readV y)) (carryFlag (s.readV x) (s.readV y))).advance := rfl

theorem exec_sub : exec (.sub x y) s =
    .next (s.writeVFlag x (subResult (s.readV x) (s.readV y)) (greaterFlag (s.readV x) (s.readV y))).advance := rfl

theorem exec_subn : exec (.subn x y) s =
    .next (s.writeVFlag x (subResult (s.readV y) (s.readV x)) (greaterFlag (s.readV y) (s.readV x))).advance := rfl

theorem exec_shr : exec (.shr x y) s =
    .next (s.writeVFlag x (shrResult (s.readV x)) (lowBitFlag (s.readV x))).advance := rfl

theorem exec_shl : exec (.shl x y) s =
    .next (s.writeVFlag x (shlResult (shlSource s x y)) (highBitFlag (s.readV x))).advance := rfl

theorem exec_rnd : exec (.rnd x kk) s = .next (s.writeV x (s.drawnByte &&& kk)).advanceRng.advance := rfl

end arms

/-! ## The registers written and PC (R123, R171) -/

section results
variable {x : Reg} {s : State} {b flag : Byte}

theorem State.readV_writeV_self : (s.writeV x b).readV x = b := by rw [State.readV_writeV, if_pos rfl]

theorem State.readV_writeVFlag_of_ne_VF (hx : x ≠ VF) : (s.writeVFlag x b flag).readV x = b := by
  rw [State.readV_writeVFlag, if_neg hx, if_pos rfl]

/-- Also when x is VF: the flag is written last (decision D9). -/
theorem State.readV_VF_writeVFlag : (s.writeVFlag x b flag).readV VF = flag := by
  rw [State.readV_writeVFlag, if_pos rfl]

theorem State.toNat_pc_advance : s.advance.pc.toNat = (s.pc.toNat + 2) % 65536 := BitVec.toNat_add _ _

end results

/-! ## Loads, and the sum with an immediate (R172 to R174) -/

/-- Settles O31: each load is one register write. -/
theorem loadsWriteOneRegister : Obligations.LoadsWriteOneRegister := fun x y kk s =>
  ⟨fun _ => ⟨decode_encode (i := .ldByte x kk) rfl, decode_encode (i := .ldReg x y) rfl⟩,
    ⟨_, exec_ldByte x kk s, State.readV_writeV_self, State.toNat_pc_advance, .of_exec (exec_ldByte x kk s)⟩,
    ⟨_, exec_ldReg x y s, State.readV_writeV_self, State.toNat_pc_advance, .of_exec (exec_ldReg x y s)⟩⟩

/-- Settles O32: one register write, and no flag beside it. -/
theorem addImmediateWrapsWithoutFlag : Obligations.AddImmediateWrapsWithoutFlag := by
  intro x kk s
  refine ⟨fun _ => decode_encode (i := .addByte x kk) rfl, _, exec_addByte x kk s, ?_, State.toNat_pc_advance,
    .of_exec (exec_addByte x kk s)⟩
  rw [State.advance_readV, State.readV_writeV_self, toNat_addResult]

/-! ## Logic (R175 to R177) -/

/-- Settles O33: the destination holds the OR, AND or XOR of the two bytes, whose bits the library gives. -/
theorem logicWorksBitByBit : Obligations.LogicWorksBitByBit := by
  intro x y s
  refine ⟨⟨_, exec_orReg x y s, rfl, .of_exec (exec_orReg x y s), fun j => ?_⟩,
    ⟨_, exec_andReg x y s, rfl, .of_exec (exec_andReg x y s), fun j => ?_⟩,
    ⟨_, exec_xorReg x y s, rfl, .of_exec (exec_xorReg x y s), fun j => ?_⟩⟩
  · rw [State.advance_readV, State.readV_writeV_self, BitVec.getLsbD_or]
  · rw [State.advance_readV, State.readV_writeV_self, BitVec.getLsbD_and]
  · rw [State.advance_readV, State.readV_writeV_self, BitVec.getLsbD_xor]

/-! ## Sum and difference with a flag (R178, R179, R181) -/

/-- Settles O34: the sum and the carry are both of the registers before the write. -/
theorem addSetsCarry : Obligations.AddSetsCarry := by
  intro x y s
  refine ⟨_, exec_addReg x y s, fun hx => ?_, ?_, rfl, .of_exec (exec_addReg x y s)⟩
  · rw [State.advance_readV, State.readV_writeVFlag_of_ne_VF hx, toNat_addResult]
  · rw [State.advance_readV, State.readV_VF_writeVFlag, toNat_carryFlag]

/-- Settles O35: 8xy5 and 8xy7 are one subtraction with its operands exchanged. -/
theorem subtractSetsStrictlyGreater : Obligations.SubtractSetsStrictlyGreater := by
  intro x y s
  refine ⟨⟨_, exec_sub x y s, fun hx => ?_, ?_, rfl, .of_exec (exec_sub x y s)⟩,
    ⟨_, exec_subn x y s, fun hx => ?_, ?_, rfl, .of_exec (exec_subn x y s)⟩⟩
  · rw [State.advance_readV, State.readV_writeVFlag_of_ne_VF hx, toNat_subResult]
  · rw [State.advance_readV, State.readV_VF_writeVFlag, toNat_greaterFlag]
  · rw [State.advance_readV, State.readV_writeVFlag_of_ne_VF hx, toNat_subResult]
  · rw [State.advance_readV, State.readV_VF_writeVFlag, toNat_greaterFlag]

/-! ## Shifts (R180, R182) -/

/-- Settles O36: neither the result nor the flag names y. -/
theorem shiftRightHalvesVx : Obligations.ShiftRightHalvesVx := by
  intro x y s
  refine ⟨_, exec_shr x y s, fun hx => ?_, ?_, rfl, .of_exec (exec_shr x y s)⟩
  · rw [State.advance_readV, State.readV_writeVFlag_of_ne_VF hx, toNat_shrResult]
  · rw [State.advance_readV, State.readV_VF_writeVFlag, toNat_lowBitFlag]

section source
variable {s : State} (x y : Reg)

theorem shlSource_of_vx (h : s.cfg.shlSource = .vx) : shlSource s x y = s.readV x := by rw [shlSource, h]

theorem shlSource_of_vy (h : s.cfg.shlSource = .vy) : shlSource s x y = s.readV y := by rw [shlSource, h]

end source

/-- Settles O37: the parameter selects the source of the result alone, and the flag is of Vx under both values. -/
theorem shiftLeftDoublesItsSource : Obligations.ShiftLeftDoublesItsSource := by
  intro x y s
  refine ⟨_, exec_shl x y s, fun hx hsource => ?_, fun hx hsource => ?_, ?_, rfl, .of_exec (exec_shl x y s)⟩
  · rw [State.advance_readV, State.readV_writeVFlag_of_ne_VF hx, toNat_shlResult, shlSource_of_vx x y hsource]
  · rw [State.advance_readV, State.readV_writeVFlag_of_ne_VF hx, toNat_shlResult, shlSource_of_vy x y hsource]
  · rw [State.advance_readV, State.readV_VF_writeVFlag, toNat_highBitFlag]

/-! ## Random (R183) -/

/-- Settles O38: the result is an AND with kk, whatever byte is drawn, and the count of draws rises without a look at kk. -/
theorem randomIsMaskedAndConsumesOneDraw : Obligations.RandomIsMaskedAndConsumesOneDraw := by
  intro x kk s
  have hx : (s.writeV x (s.drawnByte &&& kk)).advanceRng.advance.readV x = s.drawnByte &&& kk := State.readV_writeV_self
  refine ⟨_, exec_rnd x kk s, hx, fun j hj => ?_, rfl, rfl, rfl, .of_exec (exec_rnd x kk s)⟩
  rw [hx, BitVec.getLsbD_and, hj, Bool.and_false]

end Sys2Proof.Machine
end

section
/-! The family of 43_index_memory.md: the writes of I, and the stores and loads through it where their addresses are allowed. -/

namespace Sys2Proof.Machine

/-! ## Writes of I (R201 to R203) -/

section arms
variable (nnn : Addr) (x : Reg) (s : State)

theorem exec_ldI : exec (.ldI nnn) s = .next (s.setI nnn.toWord).advance := rfl

theorem exec_addI : exec (.addI x) s =
    .next ((s.setI (BitVec.ofNat 16 (indexSum s.i (s.readV x)))).writeV VF (indexFlag s.i (s.readV x))).advance := rfl

theorem exec_ldF : exec (.ldF x) s = .next (s.setI (glyphAddr (s.readV x))).advance := rfl

end arms

theorem decode_wordNNN_A (c : Config) (nnn : Addr) :
    decode c (wordNNN 0xA#4 nnn) = if c.includeAnnnBnnn then .instr (.ldI nnn) else .unmapped := by simp [decode]

/-- Settles O39: the address is extended with zeros to the width of I. -/
theorem loadIndexSetsI : Obligations.LoadIndexSetsI := fun nnn s =>
  ⟨fun c => decode_wordNNN_A c nnn, _, exec_ldI nnn s, toNat_toWord nnn, rfl, .of_exec (exec_ldI nnn s)⟩

/-- Settles O40: I keeps 16 bits of the sum, and the flag, written last, compares the whole sum. -/
theorem addIndexFlagsTwelveBitOverflow : Obligations.AddIndexFlagsTwelveBitOverflow := by
  intro x s
  refine ⟨_, exec_addI x s, BitVec.toNat_ofNat _ 16, ?_, rfl, .of_exec (exec_addI x s)⟩
  rw [State.advance_readV, State.readV_writeV_self, toNat_indexFlag]

/-- Settles O41: five times a byte is below 65536, so nothing is lost. -/
theorem glyphIndexIsFiveTimesVx : Obligations.GlyphIndexIsFiveTimesVx := fun x s =>
  ⟨fun _ => decode_encode (i := .ldF x) rfl, _, exec_ldF x s, toNat_glyphAddr (s.readV x), State.toNat_pc_advance,
    .of_exec (exec_ldF x s)⟩

/-! ## Stores and loads whose addresses are allowed (R62 to R64) -/

section allowed
variable {s : State} {x : Reg}

/-- Of the two ways an instruction with a check can end, the one left when the check raises nothing. -/
theorem of_check_eq_none {check : Option Raise} {failed : Raise → Prop} {ran : Prop} (h : check = none)
    (hcases : (∃ c, check = some c ∧ failed c) ∨ (check = none ∧ ran)) : ran := by
  rcases hcases with ⟨c, hraise, -⟩ | ⟨-, hran⟩
  · rw [h] at hraise; cases hraise
  · exact hran

theorem exec_ldB_of_allowed (hspace : s.i.toNat + 2 ≤ 0xFFF) (hfont : s.cfg.fontProtect = true → 0x50 ≤ s.i.toNat) :
    exec (.ldB x) s = .next (s.storeBytes s.base (bcdDigits (s.readV x))).advance :=
  of_check_eq_none (checkWrites_eq_none.2 (.inr ⟨Nat.succ_le_succ hspace, hfont⟩)) (execLdB_cases x s)

theorem exec_storeRegs_of_allowed (hspace : s.i.toNat + x.val ≤ 0xFFF)
    (hfont : s.cfg.fontProtect = true → 0x50 ≤ s.i.toNat) :
    exec (.storeRegs x) s = .next (s.storeBytes s.base (s.regsUpTo x)).advance :=
  of_check_eq_none (checkWrites_eq_none.2 (.inr ⟨Nat.succ_le_succ hspace, hfont⟩)) (execStoreRegs_cases x s)

theorem exec_loadRegs_of_allowed (hspace : s.i.toNat + x.val ≤ 0xFFF) :
    exec (.loadRegs x) s = .next (s.loadV 0 (s.readBytes s.base (regCount x))).advance :=
  of_check_eq_none (checkReads_eq_none.2 (.inr (Nat.succ_le_succ hspace))) (execLoadRegs_cases x s)

/-- After a store and PC + 2, the byte stored at its place. -/
theorem State.byteAt_storeBytes_advance {a : Nat} {bs : List Byte} {j : Nat} (h : j < bs.length) :
    (s.storeBytes a bs).advance.byteAt (a + j) = bs[j] := by
  rw [State.advance_byteAt, State.byteAt_storeBytes h]

theorem State.pc_storeBytes_advance {a : Nat} {bs : List Byte} : (s.storeBytes a bs).advance.pc = s.pc + 2 := by
  rw [State.advance_pc, State.storeBytes_pc]

end allowed

/-! ## Decimal digits (R204) -/

/-- Each digit fits its byte. -/
theorem map_toNat_bcdDigits (b : Byte) :
    (bcdDigits b).map BitVec.toNat = [b.toNat / 100, b.toNat / 10 % 10, b.toNat % 10] := by
  simp [bcdDigits]; omega

theorem toNat_getElem_bcdDigits (b : Byte) {j : Nat} (hj : j < (bcdDigits b).length) :
    (bcdDigits b)[j].toNat = [b.toNat / 100, b.toNat / 10 % 10, b.toNat % 10][j] :=
  (List.getElem_map BitVec.toNat).symm.trans (List.getElem_of_eq (map_toNat_bcdDigits b) hj)

/-- Settles O42: the three bytes stored are the digits, the hundreds first. -/
theorem bcdStoresThreeDigits : Obligations.BcdStoresThreeDigits := by
  intro x s hspace hfont
  have he := exec_ldB_of_allowed (x := x) hspace hfont
  have hdigit (j : Nat) (hj : j < 3) :
      ((s.storeBytes s.base (bcdDigits (s.readV x))).advance.byteAt (s.base + j)).toNat =
        [(s.readV x).toNat / 100, (s.readV x).toNat / 10 % 10, (s.readV x).toNat % 10][j] := by
    rw [State.byteAt_storeBytes_advance (bs := bcdDigits (s.readV x)) hj, toNat_getElem_bcdDigits _ hj]
  exact ⟨_, he, hdigit 0 (by decide), hdigit 1 (by decide), hdigit 2 (by decide), State.pc_storeBytes_advance,
    .of_exec he⟩

/-! ## Registers through I (R205, R206) -/

theorem lt_regCount {r x : Reg} (h : r ≤ x) : r.val < regCount x := Nat.lt_succ_of_le h

/-- Settles O43: the byte stored at place r is Vr. -/
theorem storeRegistersWritesI : Obligations.StoreRegistersWritesI := by
  intro x s hspace hfont
  have he := exec_storeRegs_of_allowed hspace hfont
  refine ⟨_, he, fun r hr => ?_, State.pc_storeBytes_advance, .of_exec he⟩
  have hlen : r.val < (s.regsUpTo x).length := by rw [length_regsUpTo]; exact lt_regCount hr
  exact (State.byteAt_storeBytes_advance hlen).trans (getElem_regsUpTo s x hlen)

theorem State.loadV_pc (s : State) (r : Nat) (bs : List Byte) : (s.loadV r bs).pc = s.pc := by rw [State.loadV_eq]

/-- Settles O44: the byte read at place r goes to Vr, of the memory before the load. -/
theorem loadRegistersReadsI : Obligations.LoadRegistersReadsI := by
  intro x s hspace
  have he := exec_loadRegs_of_allowed hspace
  refine ⟨_, he, fun r hr => ?_, by rw [State.advance_pc, State.loadV_pc], .of_exec he⟩
  have hlen : r.val < (s.readBytes s.base (regCount x)).length := by rw [length_readBytes]; exact lt_regCount hr
  rw [State.advance_readV, State.readV_loadV, dif_pos ⟨Nat.zero_le _, hlen⟩]
  exact getElem_readBytes s s.base (regCount x) hlen

end Sys2Proof.Machine
end

section
/-! The family of 44_display.md: the clear, and the sprite. A draw toggles the pixels under the set bits one after the other;
they are distinct (R234 (a)), so each toggles once, and each is tested as it was before the draw. -/

namespace Sys2Proof.Machine

/-! ## Clear (R232) -/

theorem exec_cls (s : State) : exec .cls s = .next (s.redraw Framebuffer.clear).advance := rfl

/-- Settles O47: the framebuffer becomes the clear one, and of the rest only drawFlag and PC are written. -/
theorem clearScreenClearsEveryPixel : Obligations.ClearScreenClearsEveryPixel := fun s =>
  ⟨fun _ => decode_encode (i := .cls) rfl, _, exec_cls s, fun p _ => Framebuffer.pixel_clear p, rfl,
    State.toNat_pc_advance, .of_exec (exec_cls s)⟩

/-! ## Toggling a list of pixels (R233) -/

/-- One pixel toggles, and collides when it was 1. -/
def Canvas.hit (d : Canvas) (p : Nat) : Canvas := ⟨d.fb.toggle p, d.collision || d.fb.pixel p⟩

section hits
variable {ps : List Nat} {d : Canvas}

/-- Of distinct pixels, each toggles once. -/
theorem Canvas.pixel_foldl_hit (hnodup : ps.Nodup) (hlt : ∀ q ∈ ps, q < 2048) {p : Nat} (hp : p < 2048) :
    (ps.foldl Canvas.hit d).fb.pixel p = (d.fb.pixel p ^^ decide (p ∈ ps)) := by
  induction ps generalizing d with
  | nil => simp
  | cons q qs ih =>
    obtain ⟨hq, hnodup⟩ := List.nodup_cons.1 hnodup
    obtain ⟨hq', hlt⟩ := List.forall_mem_cons.1 hlt
    rw [List.foldl_cons, ih hnodup hlt, Canvas.hit, Framebuffer.pixel_toggle _ hq' hp]
    by_cases h : p = q
    · simp [h, hq]
    · simp [h]

/-- Of distinct pixels, each is tested as it was before the first toggle. -/
theorem Canvas.collision_foldl_hit (hnodup : ps.Nodup) :
    (ps.foldl Canvas.hit d).collision = true ↔ d.collision = true ∨ ∃ p ∈ ps, d.fb.pixel p = true := by
  induction ps generalizing d with
  | nil => simp
  | cons q qs ih =>
    obtain ⟨hq, hnodup⟩ := List.nodup_cons.1 hnodup
    have hlater : ∀ p ∈ qs, (d.hit q).fb.pixel p = d.fb.pixel p := fun p hp =>
      Framebuffer.pixel_toggle_of_ne _ (ne_of_mem_of_not_mem hp hq)
    have hrest : (∃ p ∈ qs, (d.hit q).fb.pixel p = true) ↔ ∃ p ∈ qs, d.fb.pixel p = true :=
      exists_congr fun p => and_congr_right fun hp => by rw [hlater p hp]
    rw [List.foldl_cons, ih hnodup, hrest, Canvas.hit, Bool.or_eq_true, or_assoc, List.exists_mem_cons_iff]

end hits

/-! ## The pixels under the set bits of a sprite (R230, R231) -/

/-- The pixels under the set bits of one row, from the left. -/
def rowPixels (xs ys row : Nat) (b : Byte) : List Nat :=
  ((List.range 8).filter (spriteBit b)).map fun col => pixelIndex (xs + col) (ys + row)

/-- The pixels under the set bits of the rows, the first at `row`. -/
def spritePixels (xs ys row : Nat) : List Byte → List Nat
  | [] => []
  | b :: rest => rowPixels xs ys row b ++ spritePixels xs ys (row + 1) rest

section pixels
variable {xs ys row p : Nat} {b : Byte} {bs : List Byte} {d : Canvas}

theorem Canvas.drawRow_eq_foldl_hit : Canvas.drawRow b xs ys row d = (rowPixels xs ys row b).foldl Canvas.hit d := by
  rw [rowPixels, List.foldl_map, List.foldl_filter]; rfl

theorem Canvas.drawRows_eq_foldl_hit :
    Canvas.drawRows xs ys row bs d = (spritePixels xs ys row bs).foldl Canvas.hit d := by
  induction bs generalizing row d with
  | nil => rfl
  | cons b rest ih => rw [Canvas.drawRows, ih, spritePixels, List.foldl_append, Canvas.drawRow_eq_foldl_hit]

theorem mem_rowPixels :
    p ∈ rowPixels xs ys row b ↔ ∃ c, c < 8 ∧ spriteBit b c = true ∧ pixelIndex (xs + c) (ys + row) = p := by
  simp [rowPixels, and_assoc]

theorem mem_spritePixels : p ∈ spritePixels xs ys row bs ↔
    ∃ j, ∃ hj : j < bs.length, ∃ c, c < 8 ∧ spriteBit bs[j] c = true ∧ pixelIndex (xs + c) (ys + (row + j)) = p := by
  induction bs generalizing row with
  | nil => simp [spritePixels]
  | cons b rest ih =>
    rw [spritePixels, List.mem_append, mem_rowPixels, ih]
    constructor
    · rintro (hfirst | ⟨j, hj, hlater⟩)
      · exact ⟨0, Nat.succ_pos _, hfirst⟩
      · exact ⟨j + 1, Nat.succ_lt_succ hj, by rwa [Nat.add_right_comm, Nat.add_assoc] at hlater⟩
    · rintro ⟨_ | j, hj, h⟩
      · exact .inl h
      · exact .inr ⟨j, Nat.lt_of_succ_lt_succ hj, by rwa [Nat.add_right_comm, Nat.add_assoc]⟩

theorem lt_of_mem_spritePixels (h : p ∈ spritePixels xs ys row bs) : p < 2048 := by
  obtain ⟨_, _, _, _, _, rfl⟩ := mem_spritePixels.1 h
  exact pixelIndex_lt _ _

theorem nodup_rowPixels (hrow : row < 15) : (rowPixels xs ys row b).Nodup := by
  refine (List.nodup_range.filter _).map_on fun c hc c' hc' h => ?_
  have hc := List.mem_range.1 (List.mem_filter.1 hc).1
  have hc' := List.mem_range.1 (List.mem_filter.1 hc').1
  exact (pixelIndex_inj hrow hrow hc hc' h).2

/-- A sprite has at most fifteen rows, and no two of its bits fall on one pixel (R234 (a)). -/
theorem nodup_spritePixels (h : row + bs.length ≤ 15) : (spritePixels xs ys row bs).Nodup := by
  induction bs generalizing row with
  | nil => exact List.nodup_nil
  | cons b rest ih =>
    rw [List.length_cons] at h
    refine (nodup_rowPixels (by omega)).append (ih (by omega)) fun p hfirst hlater => ?_
    obtain ⟨c, hc, -, rfl⟩ := mem_rowPixels.1 hfirst
    obtain ⟨j, hj, c', hc', -, hp⟩ := mem_spritePixels.1 hlater
    have hrows := (pixelIndex_inj (by omega) (by omega) hc' hc hp).1
    omega

end pixels

/-! ## What Dxyn draws (R233) -/

section sprite
variable {s : State} {x y : Reg} {n : Nibble} {p : Nat}

/-- The pixels that the sprite of a Dxyn covers, in the order they are drawn. -/
def State.spritePixels (s : State) (x y : Reg) (n : Nibble) : List Nat :=
  Machine.spritePixels (s.readV x).toNat (s.readV y).toNat 0 (s.readBytes s.base n.toNat)

theorem State.drawSprite_eq_foldl_hit :
    s.drawSprite x y n = (s.spritePixels x y n).foldl Canvas.hit ⟨s.fb, false⟩ := Canvas.drawRows_eq_foldl_hit

theorem State.mem_spritePixels : p ∈ s.spritePixels x y n ↔ spriteCovers s x y n p := by
  rw [State.spritePixels, Machine.mem_spritePixels]
  simp only [getElem_readBytes, length_readBytes, Nat.zero_add]
  exact exists_congr fun row => exists_prop.trans exists_and_left.symm

theorem State.nodup_spritePixels : (s.spritePixels x y n).Nodup :=
  Machine.nodup_spritePixels (by rw [length_readBytes]; omega)

theorem lt_of_spriteCovers (h : spriteCovers s x y n p) : p < 2048 :=
  lt_of_mem_spritePixels (State.mem_spritePixels.2 h)

/-- A pixel under a set bit of the sprite toggles. -/
theorem pixel_drawSprite_of_covers (h : spriteCovers s x y n p) :
    (s.drawSprite x y n).fb.pixel p = !s.fb.pixel p := by
  rw [State.drawSprite_eq_foldl_hit, Canvas.pixel_foldl_hit State.nodup_spritePixels
    (fun _ => lt_of_mem_spritePixels) (lt_of_spriteCovers h), decide_eq_true (State.mem_spritePixels.2 h), Bool.xor_true]

theorem collision_drawSprite :
    (s.drawSprite x y n).collision = true ↔ ∃ p, spriteCovers s x y n p ∧ s.fb.pixel p = true := by
  rw [State.drawSprite_eq_foldl_hit, Canvas.collision_foldl_hit State.nodup_spritePixels]
  simp [State.mem_spritePixels]

/-- The same I, position and bytes give the same covered pixels. -/
theorem spriteCovers_congr {u : State} (hi : u.i = s.i) (hbytes : ∀ a, u.byteAt a = s.byteAt a)
    (hx : u.readV x = s.readV x) (hy : u.readV y = s.readV y) : spriteCovers u x y n p ↔ spriteCovers s x y n p := by
  simp only [spriteCovers, spriteSets, hi, hbytes, hx, hy]

/-- A second sprite over the same pixels puts them back. -/
theorem fb_drawSprite_of_fb_eq {u : State} (hfb : u.fb = (s.drawSprite x y n).fb)
    (hcovers : ∀ p, spriteCovers u x y n p ↔ spriteCovers s x y n p) : (u.drawSprite x y n).fb = s.fb := by
  refine Framebuffer.ext_pixel fun p _ => ?_
  by_cases hp : spriteCovers s x y n p
  · rw [pixel_drawSprite_of_covers ((hcovers p).2 hp), hfb, pixel_drawSprite_of_covers hp, Bool.not_not]
  · rw [pixel_drawSprite_of_not_covers (mt (hcovers p).1 hp), hfb, pixel_drawSprite_of_not_covers hp]

/-- The state that a Dxyn answers: the sprite drawn, then the flag in VF, then PC + 2. -/
def State.afterDraw (s : State) (x y : Reg) (n : Nibble) : State :=
  ((s.redraw (s.drawSprite x y n).fb).writeV VF (flagByte (s.drawSprite x y n).collision)).advance

theorem State.afterDraw_fb : (s.afterDraw x y n).fb = (s.drawSprite x y n).fb := rfl

theorem State.readV_VF_afterDraw : (s.afterDraw x y n).readV VF = flagByte (s.drawSprite x y n).collision :=
  State.readV_writeV_self

theorem flagByte_eq_one {b : Bool} : flagByte b = 1 ↔ b = true := by cases b <;> decide

theorem readV_VF_afterDraw_eq_one :
    (s.afterDraw x y n).readV VF = 1 ↔ ∃ p, spriteCovers s x y n p ∧ s.fb.pixel p = true := by
  rw [State.readV_VF_afterDraw, flagByte_eq_one, collision_drawSprite]

theorem readV_VF_afterDraw_eq_zero (h : ∀ p, spriteCovers s x y n p → s.fb.pixel p = false) :
    (s.afterDraw x y n).readV VF = 0 := by
  have hnone : (s.drawSprite x y n).collision = false := by
    rw [← Bool.not_eq_true, collision_drawSprite]
    rintro ⟨p, hp, hset⟩
    rw [h p hp] at hset; cases hset
  rw [State.readV_VF_afterDraw, hnone]; rfl

/-- Dxyn completes exactly when the read of its rows raises nothing. -/
theorem exec_drw_eq_next {t : State} :
    exec (.drw x y n) s = .next t ↔ checkReads s.base n.toNat = none ∧ t = s.afterDraw x y n := by
  rcases execDrw_cases x y n s with ⟨c, hcheck, hr⟩ | ⟨hcheck, hr⟩ <;> rw [exec, hr, hcheck]
  · exact ⟨nofun, nofun⟩
  · exact ⟨fun h => ⟨rfl, (Host.Outcome.next.inj h).symm⟩, fun h => congrArg _ h.2.symm⟩

end sprite

/-- Settles O48: the rows are allowed, the covered pixels toggle once, and the flag is whether one of them was set. -/
theorem drawTogglesThePixelsOfTheSprite : Obligations.DrawTogglesThePixelsOfTheSprite := by
  intro x y n s hspace
  have hallowed : n.toNat = 0 ∨ s.base + n.toNat ≤ 4096 := by
    by_cases hn : n = 0
    · exact .inl (congrArg BitVec.toNat hn)
    · have htop := hspace hn
      exact .inr (by rw [State.base]; omega)
  have he : exec (.drw x y n) s = .next (s.afterDraw x y n) := exec_drw_eq_next.2 ⟨checkReads_eq_none.2 hallowed, rfl⟩
  exact ⟨_, he, fun _ _ => ⟨pixel_drawSprite_of_covers, pixel_drawSprite_of_not_covers⟩, readV_VF_afterDraw_eq_one.2,
    readV_VF_afterDraw_eq_zero, rfl, rfl, .of_exec he⟩

/-- Settles O49: the second sprite covers the pixels of the first, so it toggles them back, and it finds set those that the
first found clear. -/
theorem drawingTwiceRestoresTheScreen : Obligations.DrawingTwiceRestoresTheScreen := by
  intro x y n s t u he hfb hi hbytes hx hy
  obtain ⟨hcheck, rfl⟩ := exec_drw_eq_next.1 he
  have hcheck' : checkReads u.base n.toNat = none := by rwa [State.base, hi]
  have hcovers (p : Nat) : spriteCovers u x y n p ↔ spriteCovers s x y n p := spriteCovers_congr hi hbytes hx hy
  refine ⟨_, exec_drw_eq_next.2 ⟨hcheck', rfl⟩, fb_drawSprite_of_fb_eq hfb hcovers, ?_⟩
  rw [readV_VF_afterDraw_eq_one]
  refine exists_congr fun p => ?_
  rw [hcovers p, hfb, State.afterDraw_fb]
  exact and_congr_right fun hp => by rw [pixel_drawSprite_of_covers hp, Bool.not_eq_true']

end Sys2Proof.Machine
end

section
/-! The family of 45_keypad_timers.md: the key skips, the wait for a key, and the moves between a register and the timers. -/

namespace Sys2Proof.Machine

variable {s t : State} {x : Reg}

/-! ## The key skips (R251, R252) -/

/-- A key code that the keypad has an entry for names a key, which is pressed as the entry says. -/
theorem State.pressed_of_key {n : Nat} {down : Bool} (h : s.key[n]? = some down) :
    ∃ hn : n < 16, s.pressed ⟨n, hn⟩ = down := Vector.getElem?_eq_some_iff.1 h

theorem exec_skp_of_key {down : Bool} (h : s.key[(s.readV x).toNat]? = some down) :
    exec (.skp x) s = .next (s.skipIf down) := by
  obtain ⟨hlt, rfl⟩ := State.pressed_of_key h
  rcases execSkp_cases x s with ⟨hinvalid, -⟩ | ⟨_, hr⟩
  · omega
  · exact hr

theorem exec_sknp_of_key {down : Bool} (h : s.key[(s.readV x).toNat]? = some down) :
    exec (.sknp x) s = .next (s.skipIf !down) := by
  obtain ⟨hlt, rfl⟩ := State.pressed_of_key h
  rcases execSknp_cases x s with ⟨hinvalid, -⟩ | ⟨_, hr⟩
  · omega
  · exact hr

/-- Settles O50: the two skips test the same key for opposite values, and a skip writes PC alone. -/
theorem keySkipsFollowTheKey : Obligations.KeySkipsFollowTheKey := by
  intro x s down hkey
  refine ⟨⟨_, exec_skp_of_key hkey, onlyChanges_skipIf s _, pc_skipIf s _⟩,
    _, exec_sknp_of_key hkey, onlyChanges_skipIf s _, ?_⟩
  rw [pc_skipIf]
  cases down <;> rfl

/-- Settles O51: of the two ways each skip can end, only the failure has a code above 15. -/
theorem keyAboveFifteenFails : Obligations.KeyAboveFifteenFails := by
  intro x s habove
  constructor
  · rcases execSkp_cases x s with ⟨-, hr⟩ | ⟨hkey, -⟩
    · exact hr
    · omega
  · rcases execSknp_cases x s with ⟨-, hr⟩ | ⟨hkey, -⟩
    · exact hr
    · omega

/-! ## The timers (R253 to R255) -/

section arms
variable (x : Reg) (s : State)

theorem exec_ldVxDt : exec (.ldVxDt x) s = .next (s.writeV x s.dt).advance := rfl

theorem exec_ldDtVx : exec (.ldDtVx x) s = .next (s.setDT (s.readV x)).advance := rfl

theorem exec_ldStVx : exec (.ldStVx x) s = .next (s.setST (s.readV x)).advance := rfl

end arms

/-- Settles O52: each move is one write, of the register or of the timer. -/
theorem timerMovesCopyTheByte : Obligations.TimerMovesCopyTheByte := fun x s =>
  ⟨fun _ => ⟨decode_encode (i := .ldVxDt x) rfl, decode_encode (i := .ldDtVx x) rfl, decode_encode (i := .ldStVx x) rfl⟩,
    ⟨_, exec_ldVxDt x s, State.readV_writeV_self, State.toNat_pc_advance, .of_exec (exec_ldVxDt x s)⟩,
    ⟨_, exec_ldDtVx x s, rfl, State.toNat_pc_advance, .of_exec (exec_ldDtVx x s)⟩,
    ⟨_, exec_ldStVx x s, rfl, State.toNat_pc_advance, .of_exec (exec_ldStVx x s)⟩⟩

/-! ## The wait for a key (R256) -/

/-- The state that an Fx0A answers when it takes the key k: k in Vx, then PC + 2. -/
def State.takeKey (s : State) (x : Reg) (k : Fin 16) : State := (s.writeV x (BitVec.ofNat 8 k.val)).advance

section takeKey
variable {k : Fin 16}

/-- Sixteen key codes fit a byte. -/
theorem State.toNat_readV_takeKey : ((s.takeKey x k).readV x).toNat = k.val := by
  rw [State.takeKey, State.advance_readV, State.readV_writeV_self, BitVec.toNat_ofNat]
  omega

theorem State.takeKey_pc : (s.takeKey x k).pc = s.pc + 2 := rfl

theorem State.takeKey_pressed (j : Fin 16) : (s.takeKey x k).pressed j = s.pressed j := rfl

theorem onlyChanges_takeKey : OnlyChanges { v := [x] } s (s.takeKey x k) :=
  ((OnlyChanges.refl _ s).writeV List.mem_cons_self _).advance

/-- Fx0A takes the pressed key below which none is pressed (decision D13). -/
theorem exec_ldVxK_of_least (hk : s.pressed k = true) (hlow : ∀ j, j < k → s.pressed j = false) :
    exec (.ldVxK x) s = .next (s.takeKey x k) := by
  have hleast : s.leastPressed = some k := State.leastPressed_eq_some.2 ⟨hk, hlow⟩
  simp only [exec, execLdVxK, hleast, State.takeKey]

end takeKey

/-- Settles O53: a wait changes nothing, and the code of the least pressed key fits Vx. -/
theorem waitTakesTheLeastPressedKey : Obligations.WaitTakesTheLeastPressedKey := fun x _ =>
  ⟨fun hkeys => exec_of_waitsForKey ⟨⟨x, rfl⟩, hkeys⟩, fun _ hk hlow =>
    ⟨_, exec_ldVxK_of_least hk hlow, State.toNat_readV_takeKey, State.takeKey_pc, onlyChanges_takeKey⟩⟩

/-! ## A key press and the step after it (R256, R297, R304) -/

theorem keyOfCode_val (k : Fin 16) : keyOfCode k.val = some k := by
  have hrange : 0 ≤ (k.val : Int) ∧ (k.val : Int) ≤ 15 := by omega
  rw [keyOfCode, dif_pos hrange]; rfl

theorem exists_key_of_code {code : Int} (h0 : 0 ≤ code) (h15 : code ≤ 15) : ∃ k : Fin 16, (k.val : Int) = code :=
  ⟨⟨code.toNat, by omega⟩, Int.toNat_of_nonneg h0⟩

theorem perform_pressKey (k : Fin 16) (s : State) : perform (.pressKey k.val) s = (s.setKey k true, .ok) := by
  simp only [perform, notifyKey, keyOfCode_val]

theorem perform_step_of_ok (h : stepOutcome s = (t, .ok)) : perform .step s = (t, .ok) := by
  simp only [perform, h, StepOutcome.toResult]

theorem performAll_pair {a b : HostOp} {u : State} {ra rb : HostResult} (ha : perform a s = (u, ra))
    (hb : perform b u = (t, rb)) : performAll [a, b] s = (t, [ra, rb]) := by
  simp only [performAll, ha, hb]

/-- The keypad holds no part of the word at PC. -/
theorem State.atInstr_setKey {i : Instr} (k : Fin 16) (b : Bool) : (s.setKey k b).atInstr i ↔ s.atInstr i := Iff.rfl

/-- Where no key was pressed, one press leaves its key the only one. -/
theorem State.pressed_setKey_of_released (hkeys : ∀ j, s.pressed j = false) (k j : Fin 16) :
    (s.setKey k true).pressed j = true ↔ j = k := by
  simp [hkeys]

/-- Settles O20: after the press its key is the only one pressed, so it is the least, and the step takes it. -/
theorem keyPressEndsTheWait : Obligations.KeyPressEndsTheWait := by
  intro s x code hat hkeys h0 h15
  obtain ⟨k, rfl⟩ := exists_key_of_code h0 h15
  have honly := State.pressed_setKey_of_released hkeys k
  have hlow : ∀ j, j < k → (s.setKey k true).pressed j = false := fun j hj =>
    Bool.eq_false_iff.2 (mt (honly j).1 hj.ne)
  have hstep : stepOutcome (s.setKey k true) = ((s.setKey k true).takeKey x k, .ok) :=
    stepOutcome_of_atInstr ((State.atInstr_setKey k true).2 hat) (exec_ldVxK_of_least ((honly k).2 rfl) hlow)
  refine ⟨_, performAll_pair (perform_pressKey k s) (perform_step_of_ok hstep),
    congrArg Nat.cast State.toNat_readV_takeKey, State.takeKey_pc, fun j => ?_, fun r hr => ?_⟩
  · rw [State.takeKey_pressed, honly, Fin.ext_iff, Nat.cast_inj]
  · exact onlyChanges_takeKey.regs r (mt List.mem_singleton.1 hr)

end Sys2Proof.Machine
end

section
/-! The family of 60_exceptions.md: the cause of every condition, and the host's operations other than a step. -/

namespace Sys2Proof.Machine

variable {s : State}

/-! ## The stack limits (R283, R284) -/

/-- Settles O27: of the two ways each instruction can end, only the failure has SP at the limit. -/
theorem stackLimitsFailTheStep : Obligations.StackLimitsFailTheStep := by
  intro nnn s
  constructor
  · intro hfull
    rcases execCall_cases nnn s with ⟨-, hr⟩ | ⟨hroom, -⟩
    · exact hr
    · omega
  · intro hempty
    rcases execRet_cases s with ⟨-, hr⟩ | ⟨hlive, -⟩
    · exact hr
    · omega

/-! ## The cause of every condition (R283 to R287) -/

/-- A read from I that raises leaves the space (R285). -/
theorem checkReads_base_eq_some {n : Nat} {c : Raise} (h : checkReads s.base n = some c) :
    n ≠ 0 ∧ 4096 < s.i.toNat + n ∧ c = .addressOutOfRange (max s.i.toNat 0x1000) := by
  rcases checkReads_base s n with ⟨hn, htop, hr⟩ | ⟨-, hr⟩ <;> rw [hr] at h <;> cases h
  exact ⟨hn, htop, rfl⟩

/-- A store of 1 to 16 bytes from I that raises leaves the space or begins in the protected font (R285, R286). -/
theorem checkWrites_base_eq_some {n : Nat} {c : Raise} (hn : n ≠ 0) (hn' : n ≤ 16)
    (h : checkWrites s.cfg s.base n = some c) :
    (4096 < s.i.toNat + n ∧ c = .addressOutOfRange (max s.i.toNat 0x1000)) ∨
    (s.i.toNat < 0x50 ∧ s.cfg.fontProtect = true ∧ c = .fontWriteViolation s.i.toNat) := by
  rcases checkWrites_base s hn hn' with ⟨htop, hr⟩ | ⟨hprotect, hfont, hr⟩ | ⟨-, -, hr⟩ <;> rw [hr] at h <;> cases h
  · exact .inl ⟨htop, rfl⟩
  · exact .inr ⟨hfont, hprotect, rfl⟩

/-- Settles O15, by cases on the instruction: the eight that check something raise what their check raises, and the others
end with a next state. -/
theorem everyFaultHasItsCause : Obligations.EveryFaultHasItsCause := by
  intro i s f he
  cases i with
  | ret =>
    rcases execRet_cases s with ⟨hempty, hr⟩ | ⟨_, hr⟩ <;> rw [exec, hr] at he <;> cases he
    exact ⟨rfl, hempty, rfl⟩
  | call nnn =>
    rcases execCall_cases nnn s with ⟨hfull, hr⟩ | ⟨_, hr⟩ <;> rw [exec, hr] at he <;> cases he
    exact ⟨rfl, hfull, nnn, rfl⟩
  | skp x =>
    rcases execSkp_cases x s with ⟨habove, hr⟩ | ⟨_, hr⟩ <;> rw [exec, hr] at he <;> cases he
    exact ⟨rfl, habove, x, .inl rfl, rfl⟩
  | sknp x =>
    rcases execSknp_cases x s with ⟨habove, hr⟩ | ⟨_, hr⟩ <;> rw [exec, hr] at he <;> cases he
    exact ⟨rfl, habove, x, .inr rfl, rfl⟩
  | drw x y n =>
    rcases execDrw_cases x y n s with ⟨c, hcheck, hr⟩ | ⟨-, hr⟩ <;> rw [exec, hr] at he <;> cases he
    obtain ⟨hcount, htop, rfl⟩ := checkReads_base_eq_some hcheck
    have hn : n ≠ 0 := fun h => hcount (congrArg BitVec.toNat h)
    exact ⟨rfl, rfl, .inl ⟨x, y, n, rfl, hn, Nat.le_sub_one_of_lt htop⟩⟩
  | loadRegs x =>
    rcases execLoadRegs_cases x s with ⟨c, hcheck, hr⟩ | ⟨-, hr⟩ <;> rw [exec, hr] at he <;> cases he
    obtain ⟨-, htop, rfl⟩ := checkReads_base_eq_some hcheck
    exact ⟨rfl, rfl, .inr (.inr ⟨x, .inr rfl, Nat.le_of_lt_succ htop⟩)⟩
  | ldB x =>
    rcases execLdB_cases x s with ⟨c, hcheck, hr⟩ | ⟨-, hr⟩ <;> rw [exec, hr] at he <;> cases he
    rcases checkWrites_base_eq_some (by decide) (by decide) hcheck with ⟨htop, rfl⟩ | ⟨hfont, hprotect, rfl⟩
    · exact ⟨rfl, rfl, .inr (.inl ⟨x, rfl, Nat.le_of_lt_succ htop⟩)⟩
    · exact ⟨rfl, rfl, hfont, hprotect, x, .inl rfl⟩
  | storeRegs x =>
    rcases execStoreRegs_cases x s with ⟨c, hcheck, hr⟩ | ⟨-, hr⟩ <;> rw [exec, hr] at he <;> cases he
    rcases checkWrites_base_eq_some (regCount_ne_zero x) x.isLt hcheck with ⟨htop, rfl⟩ | ⟨hfont, hprotect, rfl⟩
    · exact ⟨rfl, rfl, .inr (.inr ⟨x, .inl rfl, Nat.le_of_lt_succ htop⟩)⟩
    · exact ⟨rfl, rfl, hfont, hprotect, x, .inr rfl⟩
  | ldVxK x => rcases execLdVxK_cases x s with ⟨-, hr⟩ | ⟨_, -, -, hr⟩ <;> rw [exec, hr] at he <;> cases he
  | cls | jp _ | jpV0 _ | seByte _ _ | sneByte _ _ | seReg _ _ | sneReg _ _ | rnd _ _ => cases he
  | ldByte _ _ | addByte _ _ | ldReg _ _ | orReg _ _ | andReg _ _ | xorReg _ _ | addReg _ _ => cases he
  | sub _ _ | shr _ _ | subn _ _ | shl _ _ | ldI _ | addI _ | ldF _ | ldVxDt _ | ldDtVx _ | ldStVx _ => cases he

/-! ## The tick (R290) -/

theorem toNat_tickByte (b : Byte) : (tickByte b).toNat = if b.toNat > 0 then b.toNat - 1 else 0 := by
  rw [tickByte, BitVec.toNat_ofNat]
  split <;> omega

/-- Settles O54: each timer is ticked by itself, and writing the old timers back gives the old state. -/
theorem tickDecrementsBothTimers : Obligations.TickDecrementsBothTimers := fun s =>
  ⟨tickTimers s, rfl, toNat_tickByte s.dt, toNat_tickByte s.st, rfl⟩

/-! ## The load (R288, R334) -/

theorem perform_load_of_fits {bytes : List Byte} (h : bytes.length ≤ romMax) (s : State) :
    perform (.load bytes) s = (s.storeBytes programStart bytes, .ok) := if_neg (Nat.not_lt.2 h)

theorem perform_load_of_too_long {bytes : List Byte} (h : romMax < bytes.length) (s : State) :
    perform (.load bytes) s = (s, .romTooLarge bytes.length) := if_pos h

/-- A store is undone by writing the old memory back. -/
theorem State.storeBytes_withMem (s : State) (a : Nat) (bs : List Byte) :
    { s.storeBytes a bs with mem := s.mem } = s :=
  congrArg (fun t : State => { t with mem := s.mem }) (s.storeBytes_eq a bs)

/-- Settles O55: a program that fits is one store from 0x200. -/
theorem loadCopiesAllOrNothing : Obligations.LoadCopiesAllOrNothing := fun bytes s =>
  ⟨fun hfits => ⟨_, perform_load_of_fits hfits s,
      fun j b hb => by
        obtain ⟨hj, rfl⟩ := List.getElem?_eq_some_iff.1 hb
        exact State.byteAt_storeBytes hj,
      fun _ ha => State.byteAt_storeBytes_of_lt ha, s.storeBytes_withMem _ bytes⟩,
    fun hlong => perform_load_of_too_long hlong s⟩

/-! ## The key notifications (R297) -/

theorem keyOfCode_eq_none {code : Int} (h : code < 0 ∨ 15 < code) : keyOfCode code = none :=
  dif_neg (by omega)

theorem notifyKey_val (k : Fin 16) (b : Bool) (s : State) : notifyKey k.val b s = (s.setKey k b, .ok) := by
  simp only [notifyKey, keyOfCode_val]

theorem notifyKey_of_invalid {code : Int} (h : code < 0 ∨ 15 < code) (b : Bool) (s : State) :
    notifyKey code b s = (s, .invalidKeyCode code) := by
  simp only [notifyKey, keyOfCode_eq_none h]

/-- The key written is the one whose number is the code. -/
theorem State.pressed_setKey_val (s : State) (k j : Fin 16) (b : Bool) :
    (s.setKey k b).pressed j = if (j.val : Int) = k.val then b else s.pressed j := by
  simp only [State.pressed_setKey, Fin.ext_iff, Nat.cast_inj]

/-- Settles O56: a press and a release are one write of the keypad, with `true` and with `false`. -/
theorem keyNotificationsSetOneKey : Obligations.KeyNotificationsSetOneKey := by
  intro code s
  constructor
  · intro h0 h15
    obtain ⟨k, rfl⟩ := exists_key_of_code h0 h15
    exact ⟨⟨_, notifyKey_val k true s, rfl, fun j => s.pressed_setKey_val k j true⟩,
      _, notifyKey_val k false s, rfl, fun j => s.pressed_setKey_val k j false⟩
  · intro hinvalid
    exact ⟨notifyKey_of_invalid hinvalid true s, notifyKey_of_invalid hinvalid false s⟩

/-! ## The queries (R289, R293, R298) -/

theorem queryPixel_of_valid {index : Int} (h0 : 0 ≤ index) (h2047 : index ≤ 2047) (s : State) :
    queryPixel index s = .bit (s.fb.pixel index.toNat) := if_pos ⟨h0, h2047⟩

theorem queryPixel_of_invalid {index : Int} (h : index < 0 ∨ 2047 < index) (s : State) :
    queryPixel index s = .invalidPixelIndex index := if_neg (by omega)

/-- Settles O57: no query writes the state, and only `pixel` checks its argument. -/
theorem queriesAnswerFromTheState : Obligations.QueriesAnswerFromTheState := fun _ s =>
  ⟨fun h0 h2047 => congrArg (Prod.mk s) (queryPixel_of_valid h0 h2047 s),
    fun hinvalid => congrArg (Prod.mk s) (queryPixel_of_invalid hinvalid s), rfl, rfl, rfl⟩

end Sys2Proof.Machine
end

section
/-! The family of 70_reset_and_hazards.md: the run from construction with nothing loaded. Above the font every word is 0x0000,
which is unmapped, so each step moves PC by 2 until no whole word lies under it. -/

namespace Sys2Proof.Machine

variable {s t : State}

/-! ## A run and one operation after it (R340) -/

theorem performAll_concat (ops : List HostOp) (op : HostOp) (s : State) :
    performAll (ops ++ [op]) s =
      ((perform op (performAll ops s).1).1, (performAll ops s).2 ++ [(perform op (performAll ops s).1).2]) := by
  induction ops generalizing s with
  | nil => rfl
  | cons o rest ih => simp only [List.cons_append, performAll, ih]

theorem perform_step_of_unmapped {pc w : Word} (h : stepOutcome s = (t, .unmapped pc w)) :
    perform .step s = (t, .unmapped pc w) := by
  simp only [perform, h, StepOutcome.toResult]

/-! ## Stepping without a load (R336) -/

section unloaded

variable (c : Config) (seed : Seed)

/-- R96: a word of zeros is unmapped under every configuration. -/
theorem decode_zero : decode c 0 = .unmapped := rfl

/-- Above the font construction leaves zero, wherever PC stands (R61). -/
theorem byteAt_construct_setPC (pc : Word) {a : Nat} (h : 0x50 ≤ a) : ((State.construct c seed).setPC pc).byteAt a = 0 :=
  resetByte_of_le c.font h

theorem fetch_construct_setPC {pc : Word} (hlow : 0x50 ≤ pc.toNat) (htop : pc.toNat ≤ 0xFFE) :
    fetch ((State.construct c seed).setPC pc) = .ok 0 := by
  rw [fetch_ok htop, State.setPC_pc, State.wordAt, byteAt_construct_setPC c seed pc hlow,
    byteAt_construct_setPC c seed pc (Nat.le_succ_of_le hlow)]
  rfl

/-- Between the font and the top a step with nothing loaded skips the word 0x0000 (R127). -/
theorem stepOutcome_construct_setPC {pc : Word} (hlow : 0x50 ≤ pc.toNat) (htop : pc.toNat ≤ 0xFFE) :
    stepOutcome ((State.construct c seed).setPC pc) = ((State.construct c seed).setPC (pc + 2), .unmapped pc 0) :=
  stepOutcome_of_unmapped (fetch_construct_setPC c seed hlow htop) (decode_zero c)

/-- The run of `k` steps, as long as the last of them still has a whole word under PC. -/
theorem performAll_steps_construct {k : Nat} (hk : k ≤ 1792) :
    performAll (List.replicate k .step) (State.construct c seed) =
      ((State.construct c seed).setPC (BitVec.ofNat 16 (0x200 + 2 * k)),
       (List.range k).map fun j => .unmapped (BitVec.ofNat 16 (0x200 + 2 * j)) 0) := by
  induction k with
  | zero => rfl
  | succ k ih =>
    have hpc : (BitVec.ofNat 16 (0x200 + 2 * k)).toNat = 0x200 + 2 * k := Nat.mod_eq_of_lt (by omega)
    have hstep := stepOutcome_construct_setPC c seed (pc := BitVec.ofNat 16 (0x200 + 2 * k)) (by omega) (by omega)
    have hnext : BitVec.ofNat 16 (0x200 + 2 * (k + 1)) = BitVec.ofNat 16 (0x200 + 2 * k) + 2 :=
      BitVec.ofNat_add (0x200 + 2 * k) 2
    rw [List.replicate_succ', List.range_succ, List.map_append, hnext]
    rw [performAll_concat, ih (by omega), perform_step_of_unmapped hstep]
    rfl

end unloaded

/-- Settles O22: 1792 skips from 0x200, by induction on their number, end at 0x1000, where no word can be fetched. -/
theorem steppingWithoutALoadRunsToTheTop : Obligations.SteppingWithoutALoadRunsToTheTop := fun c seed =>
  ⟨fun _ hk => performAll_steps_construct c seed hk,
    step_of_fail (stepOutcome_of_top (show 0xFFE < (0x1000#16).toNat by decide))⟩

end Sys2Proof.Machine
end
